-- ==== Sys2Proof/Word.lean ====
section
/-! DEFINITION. The one datum of the machine, the byte, and the fixed sizes of `Cfg`
(spec 00_scope.md R5, R11). -/

namespace Sys2Proof

/-- Every register, datum and address is an 8-bit unsigned number (R11, `XLEN` = `ADDR_W` = 8). -/
abbrev Byte := BitVec 8

/-- `MEM_SIZE`, equal to `IO_END`: 256, fixed (R5, R6, D2). -/
def memSize : Nat := 256

/-- `NGPR`: R0..R7 (R5). -/
def numGpr : Nat := 8

end Sys2Proof
end

