-- ==== Sys2Proof/Config.lean ====
section
/-! DEFINITION. The configuration record `Cfg` (spec 00_scope.md R5), as plain data. The numbers of
the default configuration stand in Decode.lean (opcodes) and Machine/Defaults.lean (the rest). -/

namespace Sys2Proof

/-- The 29 parameters `OPC_<MNEMONIC>` (R5; 30_encoding.md R90, D5). -/
structure OpcodeMap where
  nop : Byte
  add : Byte
  sub : Byte
  mul : Byte
  div : Byte
  and : Byte
  or : Byte
  xor : Byte
  not : Byte
  shl : Byte
  shr : Byte
  jal : Byte
  jalr : Byte
  ret : Byte
  push : Byte
  pop : Byte
  beq : Byte
  bne : Byte
  blt : Byte
  bge : Byte
  ble : Byte
  bgt : Byte
  ldr : Byte
  str : Byte
  ldi : Byte
  mov : Byte
  inp : Byte
  out : Byte
  hlt : Byte
  deriving DecidableEq, Repr

/-- Positions of the five flags inside FLAGS, each in 0..7 (R5, R6; 10_state.md R31, D6). -/
structure FlagBits where
  z : Fin 8
  c : Fin 8
  s : Fin 8
  v : Fin 8
  i : Fin 8
  deriving DecidableEq, Repr

/-- `MUL_OVF`, a total function of the two operand bytes, held as data (R5; 40_arithmetic.md R128,
D11). DESIGN CHOICE, log 9: `graph ones` is the function that is 1 exactly on the listed pairs, so
every function of two bytes is some value of this type; `signAgreement` is the spec's default. -/
inductive MulOvf where
  | signAgreement
  | graph (ones : List (Byte × Byte))
  deriving DecidableEq, Repr

/-- `JALR_SAME_REG`: what JALR does when rdest = rsrc (R5; 42_call_return.md R163, D18). -/
inductive JalrSameReg where
  /-- The default: the source is read before the destination is written. -/
  | sourceFirst
  /-- OX's sentence order: the link is stored first, and the target is then read from rsrc. -/
  | destFirst
  deriving DecidableEq, Repr

/-- The device models that exist (R261: the keyboard only). -/
inductive Device where
  | keyboard
  deriving DecidableEq, Repr

/-- The configuration record (R5). `IO_END` = 256 is `memSize`; `INIT_GPR` and `INIT_MEM` are
arguments of `Machine.construct`. -/
structure Cfg where
  romBase : Byte
  ramBase : Byte
  stackBase : Byte
  ioBase : Byte
  kbdAddr : Byte
  opcodes : OpcodeMap
  flagBits : FlagBits
  mulOvf : MulOvf
  jalrSameReg : JalrSameReg
  ipf : Nat
  deriving DecidableEq, Repr

end Sys2Proof
end

