-- ==== Sys2Proof/Syntax.lean ====
section
/-! DEFINITION. The instruction set as data (spec 30_encoding.md R81 to R90): registers, operand
shapes, mnemonics and instructions. -/

namespace Sys2Proof

/-- The general registers, the only ones an operand can name (10_state.md R21, R22). -/
inductive Reg where
  | r0 | r1 | r2 | r3 | r4 | r5 | r6 | r7
  deriving DecidableEq, Repr

/-- The five operand shapes, one byte each (R83). -/
inductive Shape where
  | registerDest
  | registerSrc
  | immediate
  | offset
  | address
  deriving DecidableEq, Repr

/-- The 29 mnemonics, in the order of the opcode table (R90). -/
inductive Op where
  | nop | add | sub | mul | div | and | or | xor | not | shl | shr
  | jal | jalr | ret | push | pop
  | beq | bne | blt | bge | ble | bgt
  | ldr | str | ldi | mov | inp | out | hlt
  deriving DecidableEq, Repr

/-- An instruction with its operands in byte order (R90), one constructor per row of the opcode
table. Register operands are registers, so no ill-formed instruction can be written; a register byte
above 7 is refused by the decoder (`illegalRegister`). -/
inductive Instr where
  | nop
  | add (rdest rsrc1 rsrc2 : Reg)
  | sub (rdest rsrc1 rsrc2 : Reg)
  | mul (rdest rsrc1 rsrc2 : Reg)
  | div (rdest rsrc1 rsrc2 : Reg)
  | and (rdest rsrc1 rsrc2 : Reg)
  | or (rdest rsrc1 rsrc2 : Reg)
  | xor (rdest rsrc1 rsrc2 : Reg)
  | not (rdest rsrc : Reg)
  | shl (rdest rsrc1 rsrc2 : Reg)
  | shr (rdest rsrc1 rsrc2 : Reg)
  | jal (rdest : Reg) (addr : Byte)
  | jalr (rdest rsrc : Reg)
  | ret
  | push (rsrc : Reg)
  | pop (rdest : Reg)
  | beq (rsrc1 rsrc2 : Reg) (off : Byte)
  | bne (rsrc1 rsrc2 : Reg) (off : Byte)
  | blt (rsrc1 rsrc2 : Reg) (off : Byte)
  | bge (rsrc1 rsrc2 : Reg) (off : Byte)
  | ble (rsrc1 rsrc2 : Reg) (off : Byte)
  | bgt (rsrc1 rsrc2 : Reg) (off : Byte)
  | ldr (rdest : Reg) (addr : Byte)
  | str (addr : Byte) (rsrc : Reg)
  | ldi (rdest : Reg) (imm : Byte)
  | mov (rdest rsrc : Reg)
  | inp (rdest : Reg) (addr : Byte)
  | out (addr : Byte) (rsrc : Reg)
  | hlt
  deriving DecidableEq, Repr

end Sys2Proof
end

