-- ==== Sys2Proof/WellFormed.lean ====
section
/-! DEFINITION. Well-formedness checks, each a Bool: of a configuration (spec 00_scope.md R6), of a
ROM image (70_reset_and_hazards.md R282) and of a register operand byte (30_encoding.md R84). An
`Instr` needs no check of its own: its type admits well-formed operands only. -/

namespace Sys2Proof

/-- The 29 opcode parameters in the order of the opcode table (30_encoding.md R90). -/
def OpcodeMap.toList (m : OpcodeMap) : List Byte :=
  [m.nop, m.add, m.sub, m.mul, m.div, m.and, m.or, m.xor, m.not, m.shl, m.shr,
   m.jal, m.jalr, m.ret, m.push, m.pop, m.beq, m.bne, m.blt, m.bge, m.ble, m.bgt,
   m.ldr, m.str, m.ldi, m.mov, m.inp, m.out, m.hlt]

/-- "the 29 opcode parameters are pairwise different" (R6). -/
def OpcodeMap.wf (m : OpcodeMap) : Bool := decide m.toList.Nodup

/-- "the five flag bit positions are pairwise different" (R6). -/
def FlagBits.wf (f : FlagBits) : Bool := decide [f.z, f.c, f.s, f.v, f.i].Nodup

/-- `ROM_BASE < RAM_BASE < STACK_BASE < IO_BASE < IO_END` (R6). -/
def Cfg.regionsOrdered (c : Cfg) : Bool :=
  decide (c.romBase.toNat < c.ramBase.toNat) && decide (c.ramBase.toNat < c.stackBase.toNat) &&
    decide (c.stackBase.toNat < c.ioBase.toNat) && decide (c.ioBase.toNat < memSize)

/-- `IO_BASE <= KBD_ADDR < IO_END` (R6). -/
def Cfg.keyboardInIo (c : Cfg) : Bool :=
  decide (c.ioBase.toNat ≤ c.kbdAddr.toNat) && decide (c.kbdAddr.toNat < memSize)

/-- `IPF` is "any positive number" (R5). DESIGN CHOICE, log 16: R6 does not list it. -/
def Cfg.ipfPositive (c : Cfg) : Bool := decide (0 < c.ipf)

/-- The constraints every configuration must meet (R6), and R5's for `IPF` (log 16). -/
def Cfg.wf (c : Cfg) : Bool :=
  c.regionsOrdered && c.keyboardInIo && c.opcodes.wf && c.flagBits.wf && c.ipfPositive

/-- The load check: the image ends at or before `RAM_BASE` (70_reset_and_hazards.md R282). -/
def Cfg.imageFits (c : Cfg) (image : List Byte) : Bool :=
  decide (c.romBase.toNat + image.length ≤ c.ramBase.toNat)

/-- An operand byte is legal for its shape: a register byte is below 8, any other byte is legal
(30_encoding.md R84, R97). -/
def Shape.legal : Shape → Byte → Bool
  | .registerDest, b => decide (b.toNat < numGpr)
  | .registerSrc, b => decide (b.toNat < numGpr)
  | .immediate, _ => true
  | .offset, _ => true
  | .address, _ => true

/-- The first operand byte that is illegal for its shape, in operand order
(10_state.md R40 step 5; 60_exceptions.md R242). -/
def firstIllegal : List Shape → List Byte → Option Byte
  | sh :: shs, b :: bs => if sh.legal b then firstIllegal shs bs else some b
  | _, _ => none

end Sys2Proof
end

