-- ==== Sys2Proof/Decode.lean ====
section
/-! DEFINITION. Machine code (spec 30_encoding.md): the opcode map's default, the decoder, total on
any bytes and rejecting by name, and the encoder. -/

namespace Sys2Proof

/-- The default of the opcode parameters (R90, D5; log 2). -/
def defaultOpcodes : OpcodeMap :=
  { nop := 0x00, add := 0x01, sub := 0x02, mul := 0x03, div := 0x04, and := 0x05, or := 0x06,
    xor := 0x07, not := 0x08, shl := 0x09, shr := 0x0A, jal := 0x0B, jalr := 0x0C, ret := 0x0D,
    push := 0x0E, pop := 0x0F, beq := 0x10, bne := 0x11, blt := 0x12, bge := 0x13, ble := 0x14,
    bgt := 0x15, ldr := 0x16, str := 0x17, ldi := 0x18, mov := 0x19, inp := 0x1A, out := 0x1B,
    hlt := 0x1C }

/-- All mnemonics, in the order of the opcode table (R90). -/
def Op.all : List Op :=
  [.nop, .add, .sub, .mul, .div, .and, .or, .xor, .not, .shl, .shr, .jal, .jalr, .ret, .push, .pop,
   .beq, .bne, .blt, .bge, .ble, .bgt, .ldr, .str, .ldi, .mov, .inp, .out, .hlt]

/-- The operand shapes of each mnemonic in byte order (R83, R90). -/
def Op.shapes : Op → List Shape
  | .nop | .ret | .hlt => []
  | .add | .sub | .mul | .div | .and | .or | .xor | .shl | .shr =>
    [.registerDest, .registerSrc, .registerSrc]
  | .not | .jalr | .mov => [.registerDest, .registerSrc]
  | .jal | .ldr | .inp => [.registerDest, .address]
  | .str | .out => [.address, .registerSrc]
  | .ldi => [.registerDest, .immediate]
  | .push => [.registerSrc]
  | .pop => [.registerDest]
  | .beq | .bne | .blt | .bge | .ble | .bgt => [.registerSrc, .registerSrc, .offset]

/-- Length in bytes: one plus the number of operands (R82). -/
def Op.length (o : Op) : Nat := 1 + o.shapes.length

/-- The opcode byte `OPC_<MNEMONIC>` of a mnemonic (R90). -/
def OpcodeMap.byteOf (m : OpcodeMap) : Op → Byte
  | .nop => m.nop
  | .add => m.add
  | .sub => m.sub
  | .mul => m.mul
  | .div => m.div
  | .and => m.and
  | .or => m.or
  | .xor => m.xor
  | .not => m.not
  | .shl => m.shl
  | .shr => m.shr
  | .jal => m.jal
  | .jalr => m.jalr
  | .ret => m.ret
  | .push => m.push
  | .pop => m.pop
  | .beq => m.beq
  | .bne => m.bne
  | .blt => m.blt
  | .bge => m.bge
  | .ble => m.ble
  | .bgt => m.bgt
  | .ldr => m.ldr
  | .str => m.str
  | .ldi => m.ldi
  | .mov => m.mov
  | .inp => m.inp
  | .out => m.out
  | .hlt => m.hlt

/-- The mnemonic an opcode byte selects, if any (R40 step 3, R95). -/
def OpcodeMap.lookup (m : OpcodeMap) (b : Byte) : Option Op :=
  Op.all.find? fun o => m.byteOf o == b

/-- The register a register byte selects: 0..7 only (R84, D15). -/
def Reg.ofByte (b : Byte) : Except Byte Reg :=
  match b.toNat with
  | 0 => .ok .r0
  | 1 => .ok .r1
  | 2 => .ok .r2
  | 3 => .ok .r3
  | 4 => .ok .r4
  | 5 => .ok .r5
  | 6 => .ok .r6
  | 7 => .ok .r7
  | _ => .error b

/-- The register byte of a register (R84). -/
def Reg.toByte : Reg → Byte
  | .r0 => 0
  | .r1 => 1
  | .r2 => 2
  | .r3 => 3
  | .r4 => 4
  | .r5 => 5
  | .r6 => 6
  | .r7 => 7

/-- Format DSS: rdest, rsrc1, rsrc2 (R83). -/
def decodeDSS (k : Reg → Reg → Reg → Instr) (b1 b2 b3 : Byte) : Except Byte Instr := do
  let d ← Reg.ofByte b1
  let s1 ← Reg.ofByte b2
  let s2 ← Reg.ofByte b3
  return k d s1 s2

/-- Format DS: rdest, rsrc (R83). -/
def decodeDS (k : Reg → Reg → Instr) (b1 b2 : Byte) : Except Byte Instr := do
  let d ← Reg.ofByte b1
  let s ← Reg.ofByte b2
  return k d s

/-- Formats DA and DI: rdest, then a byte taken as it stands (R83, R85, R86). -/
def decodeDB (k : Reg → Byte → Instr) (b1 b2 : Byte) : Except Byte Instr := do
  let d ← Reg.ofByte b1
  return k d b2

/-- Format AS: address, rsrc (R83). -/
def decodeAS (k : Byte → Reg → Instr) (b1 b2 : Byte) : Except Byte Instr := do
  let s ← Reg.ofByte b2
  return k b1 s

/-- Formats S and D: one register (R83). -/
def decodeR (k : Reg → Instr) (b1 : Byte) : Except Byte Instr := do
  let r ← Reg.ofByte b1
  return k r

/-- Format SSO: rsrc1, rsrc2, offset (R83, R87). -/
def decodeSSO (k : Reg → Reg → Byte → Instr) (b1 b2 b3 : Byte) : Except Byte Instr := do
  let s1 ← Reg.ofByte b1
  let s2 ← Reg.ofByte b2
  return k s1 s2 b3

/-- The instruction with mnemonic `o` and operand bytes `b1`, `b2`, `b3` (R81; the bytes past its
length are not looked at, R98), or the first register byte above 7 in operand order
(10_state.md R40 step 5, R97). -/
def decodeOperands (o : Op) (b1 b2 b3 : Byte) : Except Byte Instr :=
  match o with
  | .nop => .ok .nop
  | .add => decodeDSS .add b1 b2 b3
  | .sub => decodeDSS .sub b1 b2 b3
  | .mul => decodeDSS .mul b1 b2 b3
  | .div => decodeDSS .div b1 b2 b3
  | .and => decodeDSS .and b1 b2 b3
  | .or => decodeDSS .or b1 b2 b3
  | .xor => decodeDSS .xor b1 b2 b3
  | .not => decodeDS .not b1 b2
  | .shl => decodeDSS .shl b1 b2 b3
  | .shr => decodeDSS .shr b1 b2 b3
  | .jal => decodeDB .jal b1 b2
  | .jalr => decodeDS .jalr b1 b2
  | .ret => .ok .ret
  | .push => decodeR .push b1
  | .pop => decodeR .pop b1
  | .beq => decodeSSO .beq b1 b2 b3
  | .bne => decodeSSO .bne b1 b2 b3
  | .blt => decodeSSO .blt b1 b2 b3
  | .bge => decodeSSO .bge b1 b2 b3
  | .ble => decodeSSO .ble b1 b2 b3
  | .bgt => decodeSSO .bgt b1 b2 b3
  | .ldr => decodeDB .ldr b1 b2
  | .str => decodeAS .str b1 b2
  | .ldi => decodeDB .ldi b1 b2
  | .mov => decodeDS .mov b1 b2
  | .inp => decodeDB .inp b1 b2
  | .out => decodeAS .out b1 b2
  | .hlt => .ok .hlt

/-- Why bytes are no instruction. -/
inductive DecodeError where
  /-- The opcode byte is not assigned (R95). -/
  | illegalOpcode (op : Byte)
  /-- A register byte is above 7; the first such byte (R97). -/
  | illegalRegister (b : Byte)
  /-- A finite list of bytes ends inside an instruction; memory never does. -/
  | truncated
  deriving DecidableEq, Repr

/-- The first instruction of a list of bytes and the bytes that follow it (R80 to R82). -/
def decode (m : OpcodeMap) : List Byte → Except DecodeError (Instr × List Byte)
  | [] => .error .truncated
  | op :: rest =>
    match m.lookup op with
    | none => .error (.illegalOpcode op)
    | some o =>
      if rest.length < o.shapes.length then .error .truncated
      else
        match decodeOperands o (rest.getD 0 0) (rest.getD 1 0) (rest.getD 2 0) with
        | .error b => .error (.illegalRegister b)
        | .ok i => .ok (i, rest.drop o.shapes.length)

/-- The mnemonic of an instruction. -/
def Instr.op : Instr → Op
  | .nop => .nop
  | .add _ _ _ => .add
  | .sub _ _ _ => .sub
  | .mul _ _ _ => .mul
  | .div _ _ _ => .div
  | .and _ _ _ => .and
  | .or _ _ _ => .or
  | .xor _ _ _ => .xor
  | .not _ _ => .not
  | .shl _ _ _ => .shl
  | .shr _ _ _ => .shr
  | .jal _ _ => .jal
  | .jalr _ _ => .jalr
  | .ret => .ret
  | .push _ => .push
  | .pop _ => .pop
  | .beq _ _ _ => .beq
  | .bne _ _ _ => .bne
  | .blt _ _ _ => .blt
  | .bge _ _ _ => .bge
  | .ble _ _ _ => .ble
  | .bgt _ _ _ => .bgt
  | .ldr _ _ => .ldr
  | .str _ _ => .str
  | .ldi _ _ => .ldi
  | .mov _ _ => .mov
  | .inp _ _ => .inp
  | .out _ _ => .out
  | .hlt => .hlt

/-- The operand bytes of an instruction, in descriptor order (R81, R84 to R87). -/
def Instr.operandBytes : Instr → List Byte
  | .nop | .ret | .hlt => []
  | .add d a b | .sub d a b | .mul d a b | .div d a b | .and d a b | .or d a b | .xor d a b
  | .shl d a b | .shr d a b => [d.toByte, a.toByte, b.toByte]
  | .not d a | .jalr d a | .mov d a => [d.toByte, a.toByte]
  | .jal d v | .ldr d v | .ldi d v | .inp d v => [d.toByte, v]
  | .str v a | .out v a => [v, a.toByte]
  | .push r | .pop r => [r.toByte]
  | .beq a b o | .bne a b o | .blt a b o | .bge a b o | .ble a b o | .bgt a b o =>
    [a.toByte, b.toByte, o]

/-- The machine code of an instruction: the opcode byte, then the operand bytes (R81). -/
def encode (m : OpcodeMap) (i : Instr) : List Byte := m.byteOf i.op :: i.operandBytes

/-- Length of an instruction in bytes, `L` (R82). -/
def Instr.length (i : Instr) : Nat := i.op.length

/-- Byte `k` of a number whose bits are numbered as the opcode table numbers them: the first byte is
bits 7..0, the next bits 15..8, and so on; bits from `nbits` up are 0. -/
def tableByte (nbits w k : Nat) : Byte := BitVec.ofNat 8 ((w % 2 ^ nbits) >>> (8 * k))

/-- The four bytes, opcode first, of a word numbered as the opcode table numbers it. -/
def tableBytes (nbits w : Nat) : List Byte :=
  [tableByte nbits w 0, tableByte nbits w 1, tableByte nbits w 2, tableByte nbits w 3]

/-- The instruction the decoder reads, with the default opcode map, from an instruction whose bits
are `w`. -/
def decodeTableWord (nbits w : Nat) : Option Instr :=
  match decode defaultOpcodes (tableBytes nbits w) with
  | .ok (i, _) => some i
  | .error _ => none

end Sys2Proof
end

