-- ==== Sys2Proof/Machine/Defaults.lean ====
section
/-! DEFINITION. The default configuration of the spec (00_scope.md R5; log 2). -/

namespace Sys2Proof.Machine

/-- Flag positions Z = 0, C = 1, S = 2, V = 3, I = 4 (10_state.md R31, D6). -/
def defaultFlagBits : FlagBits := { z := 0, c := 1, s := 2, v := 3, i := 4 }

/-- The defaults of R5: region bases (D3), keyboard address (D4), opcodes (D5), flag positions (D6),
`MUL_OVF` (D11), `JALR_SAME_REG` (D18). R5 gives `IPF` no default: 1 is DESIGN CHOICE, log 16. -/
def defaultCfg : Cfg :=
  { romBase := 0x00, ramBase := 0x80, stackBase := 0xC0, ioBase := 0xF0, kbdAddr := 0xF0,
    opcodes := defaultOpcodes, flagBits := defaultFlagBits, mulOvf := .signAgreement,
    jalrSameReg := .sourceFirst, ipf := 1 }

end Sys2Proof.Machine
end

