-- ==== Sys2Proof/Machine/State.lean ====
section
/-! DEFINITION. The complete state of the block as plain data (spec 10_state.md R20), the reasons a
step can stop, and the state after reset. -/

namespace Sys2Proof.Machine

/-- The eight general registers, 8 bits each (R21). -/
structure Regs where
  r0 : Byte
  r1 : Byte
  r2 : Byte
  r3 : Byte
  r4 : Byte
  r5 : Byte
  r6 : Byte
  r7 : Byte
  deriving DecidableEq, Repr

/-- The run state RUN (R33). -/
inductive RunState where
  | running
  | halted
  | faulted
  deriving DecidableEq, Repr

/-- The causes of a fault of the core (60_exceptions.md R241, R242, R243). -/
inductive FaultCause where
  | illegalOpcode
  | illegalRegister
  | divideByZero
  deriving DecidableEq, Repr

/-- FAULT_INFO: cause, address of the faulting opcode, one byte (60_exceptions.md R245). -/
structure FaultInfo where
  cause : FaultCause
  addr : Byte
  byte : Byte
  deriving DecidableEq, Repr

/-- MEM as address and byte pairs in one canonical form (`Memory.wf` in Machine/Ops.lean): addresses
rising, all below 256, no entry equal to what an unlisted address reads as. -/
abbrev Memory := List Host.Cell

/-- The state of the machine (R20), and the configuration it was constructed with, which no step
writes (log 1). -/
structure State where
  cfg : Cfg
  regs : Regs
  pc : Byte
  ir : Byte
  sp : Byte
  flags : Byte
  run : RunState
  faultInfo : Option FaultInfo
  mem : Memory
  kbdFifo : List Byte
  deriving DecidableEq, Repr

/-- Reasons a step ends without a next state: there are none. Every fatal error of the core is a next
state whose RUN is `faulted` (60_exceptions.md R245; log 6), and no instruction is undefined
(93_implementation_defined.md, end of section 1), so this type has no constructor. -/
inductive Fault
  deriving DecidableEq, Repr

/-- Reasons an instruction has no meaning. -/
inductive Refusal where
  /-- Raised by an arm of `exec` for an instruction that has no meaning yet; no arm raises it. Safe:
  the machine stops where the hardware goes on. -/
  | notModelled (mnemonic : String)
  deriving DecidableEq, Repr

/-- The state after construction with the default configuration and an empty ROM image: PC =
ROM_BASE, SP = STACK_BASE, IR = FLAGS = 0 (R45), RUN = running, FAULT_INFO none, keyboard FIFO empty
(R46). R0..R7 and memory are unspecified launch inputs (R47, R48): 0 here is DESIGN CHOICE, log 3 and
log 4. `construct` gives the state for every configuration, image and launch input. -/
def State.reset : State :=
  { cfg := defaultCfg
    regs := { r0 := 0, r1 := 0, r2 := 0, r3 := 0, r4 := 0, r5 := 0, r6 := 0, r7 := 0 }
    pc := defaultCfg.romBase
    ir := 0
    sp := defaultCfg.stackBase
    flags := 0
    run := .running
    faultInfo := none
    mem := []
    kbdFifo := [] }

end Sys2Proof.Machine
end

