-- ==== Sys2Proof/Machine/Ops.lean ====
section
/-! DEFINITION. The named operations over memory, registers, the dispatcher and its keyboard, and
taking a fault. -/

namespace Sys2Proof.Machine

/-! ## Memory (spec 20_memory.md R50) -/

/-- What an address that no entry lists reads as. DESIGN CHOICE, log 4: memory outside the image is
unspecified after reset (R48), and `construct` lists any other contents. -/
def unlistedByte : Byte := 0

/-- MEM[a] for an address given as a number. -/
def Memory.readAt : Memory → Nat → Byte
  | [], _ => unlistedByte
  | (b, w) :: rest, a => if a = b then w else Memory.readAt rest a

/-- MEM[a] <- v for an address given as a number, keeping the canonical form. -/
def Memory.writeAt : Memory → Nat → Byte → Memory
  | [], a, v => if v = unlistedByte then [] else [(a, v)]
  | (b, w) :: rest, a, v =>
    if a < b then
      if v = unlistedByte then (b, w) :: rest else (a, v) :: (b, w) :: rest
    else if a = b then
      if v = unlistedByte then rest else (a, v) :: rest
    else (b, w) :: Memory.writeAt rest a v

/-- MEM[a]. -/
def Memory.read (m : Memory) (a : Byte) : Byte := Memory.readAt m a.toNat

/-- MEM[a] <- v. -/
def Memory.write (m : Memory) (a v : Byte) : Memory := Memory.writeAt m a.toNat v

/-- Canonical form from address `lo` up: addresses rising and below `memSize`, no entry that reads as
an unlisted address does. -/
def Memory.wfFrom : Nat → Memory → Bool
  | _, [] => true
  | lo, (b, w) :: rest =>
    decide (lo ≤ b) && decide (b < memSize) && decide (w ≠ unlistedByte) &&
      Memory.wfFrom (b + 1) rest

/-- The canonical form of memory. -/
def Memory.wf (m : Memory) : Bool := Memory.wfFrom 0 m

/-- The bytes `vs` stored at `a`, `a + 1`, ... -/
def Memory.writeList : Memory → Nat → List Byte → Memory
  | m, _, [] => m
  | m, a, v :: vs => Memory.writeList (Memory.writeAt m a v) (a + 1) vs

/-- The memory whose byte at each of the 256 addresses is `f` of the address. -/
def Memory.ofFn (f : Byte → Byte) : Memory :=
  Memory.writeList [] 0 ((List.range memSize).map fun k => f (BitVec.ofNat 8 k))

/-! ## Registers (spec 10_state.md R21 to R30) -/

/-- The value of a general register. -/
def Regs.get (g : Regs) : Reg → Byte
  | .r0 => g.r0
  | .r1 => g.r1
  | .r2 => g.r2
  | .r3 => g.r3
  | .r4 => g.r4
  | .r5 => g.r5
  | .r6 => g.r6
  | .r7 => g.r7

/-- A general register written. No register is hard-wired (R21). -/
def Regs.set (g : Regs) (r : Reg) (v : Byte) : Regs :=
  match r with
  | .r0 => { g with r0 := v }
  | .r1 => { g with r1 := v }
  | .r2 => { g with r2 := v }
  | .r3 => { g with r3 := v }
  | .r4 => { g with r4 := v }
  | .r5 => { g with r5 := v }
  | .r6 => { g with r6 := v }
  | .r7 => { g with r7 := v }

/-- `x[r]` (00_scope.md R12). -/
def State.reg (s : State) (r : Reg) : Byte := s.regs.get r

/-- `x[r] <- v` (00_scope.md R12). -/
def State.setReg (s : State) (r : Reg) (v : Byte) : State := { s with regs := s.regs.set r v }

/-- `PC <- t`. -/
def State.setPc (s : State) (t : Byte) : State := { s with pc := t }

/-- `SP <- t`. -/
def State.setSp (s : State) (t : Byte) : State := { s with sp := t }

/-- `FLAGS` written whole. -/
def State.setFlags (s : State) (f : Byte) : State := { s with flags := f }

/-- `RUN <- r`. -/
def State.setRun (s : State) (r : RunState) : State := { s with run := r }

/-- MEM[a] <- v behind the dispatcher. -/
def State.setMem (s : State) (a v : Byte) : State := { s with mem := Memory.write s.mem a v }

/-- The keyboard queue replaced. -/
def State.setFifo (s : State) (q : List Byte) : State := { s with kbdFifo := q }

/-! ## The keyboard device (spec 60_exceptions.md R255 to R258) -/

/-- Device `read()`: the oldest byte, removed, or 0 from an empty queue (R256). -/
def State.kbdRead (s : State) : Byte × State :=
  match s.kbdFifo with
  | [] => (0, s)
  | c :: rest => (c, s.setFifo rest)

/-- Device `write(v)`: appended at the tail (R257). -/
def State.kbdWrite (s : State) (v : Byte) : State := s.setFifo (s.kbdFifo ++ [v])

/-! ## The dispatcher (spec 20_memory.md R60 to R64) -/

/-- The device registered at an address: the keyboard at `KBD_ADDR`, no other (R64, D28; log 24). -/
def deviceAt (c : Cfg) (a : Byte) : Option Device :=
  if a = c.kbdAddr then some .keyboard else none

/-- `MemRead(a, 1)` (R60). -/
def State.memRead (s : State) (a : Byte) : Byte × State :=
  match deviceAt s.cfg a with
  | some .keyboard => s.kbdRead
  | none => (Memory.read s.mem a, s)

/-- `MemWrite(a, 1, v)` (R61). -/
def State.memWrite (s : State) (a v : Byte) : State :=
  match deviceAt s.cfg a with
  | some .keyboard => s.kbdWrite v
  | none => s.setMem a v

/-! ## Taking a fault (spec 60_exceptions.md R240 to R247) -/

/-- The cause codes (R241, R242, R243, D14). -/
def FaultCause.code : FaultCause → Nat
  | .illegalOpcode => 1
  | .illegalRegister => 2
  | .divideByZero => 3

/-- `raise F(info)`: RUN and FAULT_INFO are written and nothing else; PC stays the address of the
instruction (R245). There is no return from a fault (R247). -/
def State.raise (s : State) (cause : FaultCause) (info : Byte) : State :=
  { s with run := .faulted, faultInfo := some { cause := cause, addr := s.pc, byte := info } }

end Sys2Proof.Machine
end

