-- ==== Sys2Proof/Machine/Operands.lean ====
section
/-! DEFINITION. Operand forms beyond a register or a byte taken as it stands: the address of the
following instruction, the link value, the branch target, and reading an instruction's bytes. -/

namespace Sys2Proof.Machine

/-- `PC <- next` for an instruction of `len` bytes, modulo 256 (spec 10_state.md R25, R26). -/
def State.advance (s : State) (len : Nat) : State := s.setPc (s.pc + BitVec.ofNat 8 len)

/-- The link value of JAL and JALR, `(A + 3) mod 256` (42_call_return.md R160, D7). -/
def State.link (s : State) : Byte := s.pc + 3

/-- The target of a taken branch at `a`: `(A + 3 + sext_8(off)) mod 256` (44_branch.md R186, D7). -/
def branchTarget (a off : Byte) : Byte := BitVec.ofInt 8 ((a.toNat : Int) + 3 + off.toInt)

/-- `n` bytes read through the dispatcher at `a`, `a + 1`, ... in ascending order, modulo 256
(10_state.md R40 steps 2 and 4, R41; 20_memory.md R63). -/
def State.readBytes : Nat → Byte → State → List Byte × State
  | 0, _, s => ([], s)
  | n + 1, a, s =>
    let (b, s1) := s.memRead a
    let (bs, s2) := State.readBytes n (a + 1) s1
    (b :: bs, s2)

end Sys2Proof.Machine
end

