-- ==== Sys2Proof/Machine/Flags.lean ====
section
/-! DEFINITION. The flags of FLAGS and how ADD, SUB, MUL and DIV compute them
(spec 10_state.md R31, R32; 40_arithmetic.md R121 to R132). No other instruction writes FLAGS. -/

namespace Sys2Proof.Machine

/-- One bit of FLAGS. -/
def flagAt (f : Byte) (p : Fin 8) : Bool := f.getLsbD p.val

/-- One bit of FLAGS written, the other seven unchanged (00_scope.md R12). -/
def setFlagAt (f : Byte) (p : Fin 8) (b : Bool) : Byte :=
  if b then f ||| (1#8 <<< p.val) else f &&& ~~~(1#8 <<< p.val)

/-- The Zero flag. -/
def State.flagZ (s : State) : Bool := flagAt s.flags s.cfg.flagBits.z
/-- The Carry flag. -/
def State.flagC (s : State) : Bool := flagAt s.flags s.cfg.flagBits.c
/-- The Sign flag. -/
def State.flagS (s : State) : Bool := flagAt s.flags s.cfg.flagBits.s
/-- The Overflow flag. -/
def State.flagV (s : State) : Bool := flagAt s.flags s.cfg.flagBits.v
/-- The Interrupt-enable flag. -/
def State.flagI (s : State) : Bool := flagAt s.flags s.cfg.flagBits.i

/-- `C <- b`. -/
def State.setC (s : State) (b : Bool) : State := s.setFlags (setFlagAt s.flags s.cfg.flagBits.c b)
/-- `S <- b`. -/
def State.setS (s : State) (b : Bool) : State := s.setFlags (setFlagAt s.flags s.cfg.flagBits.s b)
/-- `V <- b`. -/
def State.setV (s : State) (b : Bool) : State := s.setFlags (setFlagAt s.flags s.cfg.flagBits.v b)

/-- `raw mod 256` (R121). -/
def truncate (raw : Int) : Byte := BitVec.ofInt 8 raw

/-- "Carry = raw result outside [0,255]" (R123). -/
def carryOf (raw : Int) : Bool := decide (raw < 0) || decide (255 < raw)

/-- "Sign = bit 7 of truncated result" (R123). -/
def signOf (res : Byte) : Bool := res.getLsbD 7

/-- Overflow of ADD and SUB: the signed result is outside -128..127 (R124, R126). -/
def overflowOf (signedRaw : Int) : Bool := decide (signedRaw < -128) || decide (127 < signedRaw)

/-- The default of `MUL_OVF`: a[7] = b[7] and res[7] differs from a[7] (R128, D11). -/
def signAgreementOvf (a b : Byte) : Bool :=
  (a.getLsbD 7 == b.getLsbD 7) && ((a * b).getLsbD 7 != a.getLsbD 7)

/-- `MUL_OVF(a, b)` of a configuration (00_scope.md R5; log 9). -/
def mulOverflow (c : Cfg) (a b : Byte) : Bool :=
  match c.mulOvf with
  | .signAgreement => signAgreementOvf a b
  | .graph ones => decide ((a, b) ∈ ones)

/-- The common effect of ADD, SUB and MUL: the truncated result to rdest, C and S from the raw
result, V as given, then `PC <- next` (R121, R123). -/
def State.arith (s : State) (d : Reg) (raw : Int) (ovf : Bool) : State :=
  ((((s.setReg d (truncate raw)).setC (carryOf raw)).setS (signOf (truncate raw))).setV ovf).advance 4

/-- The common effect of the logic and shift instructions: a result to rdest, no flags, then
`PC <- next` (41_logic_shift.md R141). -/
def State.result (s : State) (d : Reg) (v : Byte) (len : Nat) : State := (s.setReg d v).advance len

end Sys2Proof.Machine
end

