-- ==== Sys2Proof/Machine/Arithmetic.lean ====
section
/-! DEFINITION. ADD, SUB, MUL, DIV (spec 40_arithmetic.md). -/

namespace Sys2Proof.Machine

/-- ADD (R124). -/
def execAdd (d s1 s2 : Reg) (s : State) : Host.Outcome State Fault Refusal :=
  let a := s.reg s1
  let b := s.reg s2
  .next (s.arith d ((a.toNat : Int) + b.toNat) (overflowOf (a.toInt + b.toInt)))

/-- SUB: rsrc1 minus rsrc2 (R126, D8). -/
def execSub (d s1 s2 : Reg) (s : State) : Host.Outcome State Fault Refusal :=
  let a := s.reg s1
  let b := s.reg s2
  .next (s.arith d ((a.toNat : Int) - b.toNat) (overflowOf (a.toInt - b.toInt)))

/-- MUL: the low byte of the unsigned product; V is the parameter `MUL_OVF` (R128, D11). -/
def execMul (d s1 s2 : Reg) (s : State) : Host.Outcome State Fault Refusal :=
  let a := s.reg s1
  let b := s.reg s2
  .next (s.arith d ((a.toNat : Int) * b.toNat) (mulOverflow s.cfg a b))

/-- DIV: the unsigned quotient; C and V cleared, S unchanged (R130, D12); a zero divisor faults with
the register index of rsrc2 (R131, R243, D13). -/
def execDiv (d s1 s2 : Reg) (s : State) : Host.Outcome State Fault Refusal :=
  let a := s.reg s1
  let b := s.reg s2
  if b = 0 then .next (s.raise .divideByZero s2.toByte)
  else .next ((((s.setReg d (BitVec.ofNat 8 (a.toNat / b.toNat))).setC false).setV false).advance 4)

end Sys2Proof.Machine
end

