-- ==== Sys2Proof/Machine/Branch.lean ====
section
/-! DEFINITION. BEQ, BNE, BLT, BGE, BLE, BGT (spec 44_branch.md). -/

namespace Sys2Proof.Machine

/-- The common effect of the branches: to the target if the condition holds, else to `next`; nothing
but PC changes (R185). -/
def State.branchIf (s : State) (cond : Bool) (off : Byte) : State :=
  if cond then s.setPc (branchTarget s.pc off) else s.advance 4

/-- BEQ: taken exactly when equal (R187). -/
def execBeq (s1 s2 : Reg) (off : Byte) (s : State) : Host.Outcome State Fault Refusal :=
  .next (s.branchIf (decide (s.reg s1 = s.reg s2)) off)

/-- BNE: taken exactly when different (R188). -/
def execBne (s1 s2 : Reg) (off : Byte) (s : State) : Host.Outcome State Fault Refusal :=
  .next (s.branchIf (decide (s.reg s1 ≠ s.reg s2)) off)

/-- BLT: taken exactly when less, unsigned (R189). -/
def execBlt (s1 s2 : Reg) (off : Byte) (s : State) : Host.Outcome State Fault Refusal :=
  .next (s.branchIf (decide ((s.reg s1).toNat < (s.reg s2).toNat)) off)

/-- BGE: taken exactly when greater or equal, unsigned (R190). -/
def execBge (s1 s2 : Reg) (off : Byte) (s : State) : Host.Outcome State Fault Refusal :=
  .next (s.branchIf (decide ((s.reg s1).toNat ≥ (s.reg s2).toNat)) off)

/-- BLE: taken exactly when less or equal, unsigned (R191). -/
def execBle (s1 s2 : Reg) (off : Byte) (s : State) : Host.Outcome State Fault Refusal :=
  .next (s.branchIf (decide ((s.reg s1).toNat ≤ (s.reg s2).toNat)) off)

/-- BGT: taken exactly when greater, unsigned (R192). -/
def execBgt (s1 s2 : Reg) (off : Byte) (s : State) : Host.Outcome State Fault Refusal :=
  .next (s.branchIf (decide ((s.reg s1).toNat > (s.reg s2).toNat)) off)

end Sys2Proof.Machine
end

