-- ==== Sys2Proof/Machine/CallReturn.lean ====
section
/-! DEFINITION. JAL, JALR, RET (spec 42_call_return.md). -/

namespace Sys2Proof.Machine

/-- The common effect of JAL and JALR: the link to rdest and to the byte at SP, SP up by one, then
the transfer (R161, R163). -/
def State.linkAndJump (s : State) (d : Reg) (target : Byte) : State :=
  (((s.setReg d s.link).memWrite s.sp s.link).setSp (s.sp + 1)).setPc target

/-- JAL (R161). -/
def execJal (d : Reg) (addr : Byte) (s : State) : Host.Outcome State Fault Refusal :=
  .next (s.linkAndJump d addr)

/-- The target of JALR: the old value of rsrc, or with `JALR_SAME_REG` = `destFirst` the value rsrc
holds once the link is in rdest, which differs only if rdest = rsrc (R163, D18; log 10). -/
def jalrTarget (d r : Reg) (s : State) : Byte :=
  match s.cfg.jalrSameReg with
  | .sourceFirst => s.reg r
  | .destFirst => (s.setReg d s.link).reg r

/-- JALR (R163). -/
def execJalr (d r : Reg) (s : State) : Host.Outcome State Fault Refusal :=
  .next (s.linkAndJump d (jalrTarget d r s))

/-- RET: the byte at SP is read, SP goes up by one, PC takes the byte (R165; 90_conflicts.md C3). -/
def execRet (s : State) : Host.Outcome State Fault Refusal :=
  let (v, s1) := s.memRead s.sp
  .next ((s1.setSp (s.sp + 1)).setPc v)

end Sys2Proof.Machine
end

