-- ==== Sys2Proof/Machine/LoadStore.lean ====
section
/-! DEFINITION. LDR, STR, LDI, MOV (spec 45_load_store_move.md), and the two accesses that IN and OUT
share with LDR and STR (46_io.md R215). -/

namespace Sys2Proof.Machine

/-- `x[d] <- MemRead(addr, 1); PC <- next` (R201). -/
def State.loadFrom (s : State) (d : Reg) (addr : Byte) : State :=
  let (v, s1) := s.memRead addr
  (s1.setReg d v).advance 3

/-- `MemWrite(addr, 1, x[r]); PC <- next` (R202). -/
def State.storeTo (s : State) (addr : Byte) (r : Reg) : State :=
  (s.memWrite addr (s.reg r)).advance 3

/-- LDR (R201). -/
def execLdr (d : Reg) (addr : Byte) (s : State) : Host.Outcome State Fault Refusal :=
  .next (s.loadFrom d addr)

/-- STR (R202). -/
def execStr (addr : Byte) (r : Reg) (s : State) : Host.Outcome State Fault Refusal :=
  .next (s.storeTo addr r)

/-- LDI (R203). -/
def execLdi (d : Reg) (imm : Byte) (s : State) : Host.Outcome State Fault Refusal :=
  .next ((s.setReg d imm).advance 3)

/-- MOV (R204). -/
def execMov (d r : Reg) (s : State) : Host.Outcome State Fault Refusal :=
  .next ((s.setReg d (s.reg r)).advance 3)

end Sys2Proof.Machine
end

