-- ==== Sys2Proof/Machine/Io.lean ====
section
/-! DEFINITION. IN, OUT (spec 46_io.md): the accesses of LDR and STR under opcodes of their own
(R215). -/

namespace Sys2Proof.Machine

/-- IN (R216). -/
def execIn (d : Reg) (addr : Byte) (s : State) : Host.Outcome State Fault Refusal :=
  .next (s.loadFrom d addr)

/-- OUT (R217). -/
def execOut (addr : Byte) (r : Reg) (s : State) : Host.Outcome State Fault Refusal :=
  .next (s.storeTo addr r)

end Sys2Proof.Machine
end

