-- ==== Sys2Proof/Machine/Logic.lean ====
section
/-! DEFINITION. AND, OR, XOR, NOT, SHL, SHR (spec 41_logic_shift.md). None writes FLAGS (R141). -/

namespace Sys2Proof.Machine

/-- AND (R142). -/
def execAnd (d s1 s2 : Reg) (s : State) : Host.Outcome State Fault Refusal :=
  .next (s.result d (s.reg s1 &&& s.reg s2) 4)

/-- OR (R143). -/
def execOr (d s1 s2 : Reg) (s : State) : Host.Outcome State Fault Refusal :=
  .next (s.result d (s.reg s1 ||| s.reg s2) 4)

/-- XOR (R144). -/
def execXor (d s1 s2 : Reg) (s : State) : Host.Outcome State Fault Refusal :=
  .next (s.result d (s.reg s1 ^^^ s.reg s2) 4)

/-- NOT: 255 minus the source, the complement of every bit (R145). -/
def execNot (d s1 : Reg) (s : State) : Host.Outcome State Fault Refusal :=
  .next (s.result d (~~~(s.reg s1)) 3)

/-- `if n >= 8 then 0 else (a * 2^n) mod 256`, the amount being the whole byte (R146, D10). -/
def shiftLeft (a n : Byte) : Byte :=
  if 8 ≤ n.toNat then 0 else BitVec.ofNat 8 (a.toNat * 2 ^ n.toNat)

/-- `if n >= 8 then 0 else a div 2^n` (R147, D10). -/
def shiftRight (a n : Byte) : Byte :=
  if 8 ≤ n.toNat then 0 else BitVec.ofNat 8 (a.toNat / 2 ^ n.toNat)

/-- SHL (R146). -/
def execShl (d s1 s2 : Reg) (s : State) : Host.Outcome State Fault Refusal :=
  .next (s.result d (shiftLeft (s.reg s1) (s.reg s2)) 4)

/-- SHR, logical (R147). -/
def execShr (d s1 s2 : Reg) (s : State) : Host.Outcome State Fault Refusal :=
  .next (s.result d (shiftRight (s.reg s1) (s.reg s2)) 4)

end Sys2Proof.Machine
end

