-- ==== Sys2Proof/Machine/Stack.lean ====
section
/-! DEFINITION. PUSH, POP (spec 43_stack.md). -/

namespace Sys2Proof.Machine

/-- PUSH: the register to the byte at SP, then SP down by one (R176). -/
def execPush (r : Reg) (s : State) : Host.Outcome State Fault Refusal :=
  .next (((s.memWrite s.sp (s.reg r)).setSp (s.sp - 1)).advance 2)

/-- POP: SP up by one, then the byte at the new SP to the register (R178). -/
def execPop (d : Reg) (s : State) : Host.Outcome State Fault Refusal :=
  let (v, s1) := s.memRead (s.sp + 1)
  .next (((s1.setSp (s.sp + 1)).setReg d v).advance 2)

end Sys2Proof.Machine
end

