-- ==== Sys2Proof/Machine/System.lean ====
section
/-! DEFINITION. NOP, HLT (spec 47_system.md). -/

namespace Sys2Proof.Machine

/-- NOP: PC only (R226). -/
def execNop (s : State) : Host.Outcome State Fault Refusal := .next (s.advance 1)

/-- HLT: RUN <- halted; PC <- next (R227, D19). -/
def execHlt (s : State) : Host.Outcome State Fault Refusal := .next ((s.setRun .halted).advance 1)

end Sys2Proof.Machine
end

