-- ==== Sys2Proof/Machine/Dispatch.lean ====
section
/-! DEFINITION. The meaning of each instruction (spec 10_state.md R40 step 6): one arm per
constructor. The state's PC is the address of the instruction's opcode byte. -/

namespace Sys2Proof.Machine

def exec (i : Instr) (s : State) : Host.Outcome State Fault Refusal :=
  match i with
  | .nop => Sys2Proof.Machine.execNop s
  | .add d s1 s2 => Sys2Proof.Machine.execAdd d s1 s2 s
  | .sub d s1 s2 => Sys2Proof.Machine.execSub d s1 s2 s
  | .mul d s1 s2 => Sys2Proof.Machine.execMul d s1 s2 s
  | .div d s1 s2 => Sys2Proof.Machine.execDiv d s1 s2 s
  | .and d s1 s2 => Sys2Proof.Machine.execAnd d s1 s2 s
  | .or d s1 s2 => Sys2Proof.Machine.execOr d s1 s2 s
  | .xor d s1 s2 => Sys2Proof.Machine.execXor d s1 s2 s
  | .not d r => Sys2Proof.Machine.execNot d r s
  | .shl d s1 s2 => Sys2Proof.Machine.execShl d s1 s2 s
  | .shr d s1 s2 => Sys2Proof.Machine.execShr d s1 s2 s
  | .jal d addr => Sys2Proof.Machine.execJal d addr s
  | .jalr d r => Sys2Proof.Machine.execJalr d r s
  | .ret => Sys2Proof.Machine.execRet s
  | .push r => Sys2Proof.Machine.execPush r s
  | .pop d => Sys2Proof.Machine.execPop d s
  | .beq s1 s2 off => Sys2Proof.Machine.execBeq s1 s2 off s
  | .bne s1 s2 off => Sys2Proof.Machine.execBne s1 s2 off s
  | .blt s1 s2 off => Sys2Proof.Machine.execBlt s1 s2 off s
  | .bge s1 s2 off => Sys2Proof.Machine.execBge s1 s2 off s
  | .ble s1 s2 off => Sys2Proof.Machine.execBle s1 s2 off s
  | .bgt s1 s2 off => Sys2Proof.Machine.execBgt s1 s2 off s
  | .ldr d addr => Sys2Proof.Machine.execLdr d addr s
  | .str addr r => Sys2Proof.Machine.execStr addr r s
  | .ldi d imm => Sys2Proof.Machine.execLdi d imm s
  | .mov d r => Sys2Proof.Machine.execMov d r s
  | .inp d addr => Sys2Proof.Machine.execIn d addr s
  | .out addr r => Sys2Proof.Machine.execOut addr r s
  | .hlt => Sys2Proof.Machine.execHlt s

end Sys2Proof.Machine
end

