-- ==== Sys2Proof/Machine/Fetch.lean ====
section
/-! DEFINITION. Fetching and decoding at PC (spec 10_state.md R40 steps 1 to 5), and placing an
instruction where the next fetch finds it. -/

namespace Sys2Proof.Machine

/-- Steps 1 to 5 of the instruction cycle: the opcode is read through the dispatcher and looked up,
the operand bytes are read in ascending order, and the register bytes are checked in operand order.
The answer is the instruction, or the fault and its byte, with the state the reads leave (a read at
`KBD_ADDR` pops the keyboard, R63, R43). -/
def State.fetch (s : State) : Except (FaultCause × Byte) Instr × State :=
  let (op, s1) := s.memRead s.pc
  match s.cfg.opcodes.lookup op with
  | none => (.error (.illegalOpcode, op), s1)
  | some o =>
    let (bs, s2) := s1.readBytes o.shapes.length (s.pc + 1)
    match decodeOperands o (bs.getD 0 0) (bs.getD 1 0) (bs.getD 2 0) with
    | .error b => (.error (.illegalRegister, b), s2)
    | .ok i => (.ok i, s2)

/-- A byte placed where the next read at `a` finds it: at the head of the keyboard queue at
`KBD_ADDR`, in memory elsewhere (log 22). -/
def State.placeByte (s : State) (a v : Byte) : State :=
  match deviceAt s.cfg a with
  | some .keyboard => s.setFifo (v :: s.kbdFifo)
  | none => s.setMem a v

/-- Bytes placed at `a`, `a + 1`, ... modulo 256. -/
def State.placeBytes : State → Byte → List Byte → State
  | s, _, [] => s
  | s, a, v :: vs => State.placeBytes (s.placeByte a v) (a + 1) vs

end Sys2Proof.Machine
end

