-- ==== Sys2Proof/Machine/Step.lean ====
section
/-! DEFINITION. One step of the core (spec 10_state.md R40), enabled only when RUN is `running`. -/

namespace Sys2Proof.Machine

/-- One instruction step. A halted or faulted core has no step (R34): nothing changes (log 7). -/
def step (s : State) : Host.Outcome State Fault Refusal :=
  match s.run with
  | .running =>
    match s.fetch with
    | (.ok i, s1) => exec i s1
    | (.error (cause, b), s1) => .next (s1.raise cause b)
  | .halted => .next s
  | .faulted => .next s

/-- `s` with the instruction of bits `w`, numbered as the opcode table numbers them, placed at PC, and
RUN = running, so that the next step runs it (log 22). -/
def State.withFetchWord (s : State) (nbits w : Nat) : State :=
  (s.placeBytes s.pc (tableBytes nbits w)).setRun .running

end Sys2Proof.Machine
end

