-- ==== Sys2Proof/Machine/HostInterface.lean ====
section
/-! DEFINITION. What the host can do to the block (spec 00_scope.md R9, R10;
60_exceptions.md R263): construct it, deliver key events, let it run. -/

namespace Sys2Proof.Machine

/-- Why construction gives no machine (70_reset_and_hazards.md R281, R282). A load error is not a
fault of the core. -/
inductive LoadError where
  /-- The configuration breaks 00_scope.md R6. -/
  | badConfiguration
  /-- "ROM image too large for its region" (R282). -/
  | imageTooLarge
  deriving DecidableEq, Repr

/-- MEM after construction: the launch input INIT_MEM, then the image copied to ROM_BASE
(10_state.md R48). -/
def initialMem (c : Cfg) (image : List Byte) (initMem : Byte → Byte) : Memory :=
  Memory.writeList (Memory.ofFn initMem) c.romBase.toNat image

/-- Construction, which is the only reset (70_reset_and_hazards.md R280, R281; 10_state.md R45 to
R48). `initGpr` and `initMem` are the launch inputs INIT_GPR and INIT_MEM. The image is not inspected
(R283). -/
def construct (c : Cfg) (image : List Byte) (initGpr : Reg → Byte) (initMem : Byte → Byte) :
    Except LoadError State :=
  if !c.wf then .error .badConfiguration
  else if !c.imageFits image then .error .imageTooLarge
  else
    .ok
      { cfg := c
        regs :=
          { r0 := initGpr .r0, r1 := initGpr .r1, r2 := initGpr .r2, r3 := initGpr .r3,
            r4 := initGpr .r4, r5 := initGpr .r5, r6 := initGpr .r6, r7 := initGpr .r7 }
        pc := c.romBase
        ir := 0
        sp := c.stackBase
        flags := 0
        run := .running
        faultInfo := none
        mem := initialMem c image initMem
        kbdFifo := [] }

/-- A host key event: one byte appended to the keyboard queue, in any state of RUN (R258). -/
def State.keyEvent (s : State) (c : Byte) : State := s.kbdWrite c

/-- What can happen at an instruction boundary: the core runs one step, or the host delivers a key
event (00_scope.md R10). -/
inductive Action where
  | coreStep
  | key (c : Byte)
  deriving DecidableEq, Repr

/-- One action of either agent. -/
def perform (s : State) : Action → Host.Outcome State Fault Refusal
  | .coreStep => step s
  | .key c => .next (s.keyEvent c)

/-- The actions of a schedule, one after the other (60_exceptions.md R259). -/
def runActions : List Action → State → Host.Outcome State Fault Refusal
  | [], s => .next s
  | a :: rest, s =>
    match perform s a with
    | .next s1 => runActions rest s1
    | .fault r => .fault r
    | .refused r => .refused r

end Sys2Proof.Machine
end

