-- ==== Sys2Proof/Safety.lean ====
section
/-! DEFINITION. What counts as a good state and a safe run, and the words the statements use: what an
instruction keeps, what one transaction does, and what an encoding is. They are written from the spec
in plain numbers, not from the meanings. -/

namespace Sys2Proof.Machine

/-! ## Good states and runs -/

/-- The states of a machine that was constructed and has run: the configuration meets 00_scope.md R6,
memory is canonical, IR is 0 (10_state.md R28), every bit of FLAGS but C, S and V is 0 (R32), and
FAULT_INFO is recorded exactly when RUN is `faulted` (R20). -/
structure State.Inv (s : State) : Prop where
  cfgWf : s.cfg.wf = true
  memWf : Memory.wf s.mem = true
  irZero : s.ir = 0
  otherFlags : ∀ p : Fin 8, p ≠ s.cfg.flagBits.c → p ≠ s.cfg.flagBits.s →
    p ≠ s.cfg.flagBits.v → flagAt s.flags p = false
  faultRecorded : s.faultInfo.isSome = true ↔ s.run = .faulted

/-- "a faulted run is never a successful run" (60_exceptions.md R245). -/
def State.Safe (s : State) : Prop := s.run ≠ .faulted

/-- The states a machine reaches from some construction, whatever the launch inputs and however the
host's key events fall between the core's steps (60_exceptions.md R259). -/
inductive Reachable : State → Prop where
  | constructed {c : Cfg} {image : List Byte} {g : Reg → Byte} {m : Byte → Byte} {s : State} :
      construct c image g m = .ok s → Reachable s
  | acted {s t : State} {a : Action} : Reachable s → perform s a = .next t → Reachable t

/-! ## Configurations -/

/-- The constraints of 00_scope.md R6 in plain numbers. That the bit positions lie in 0..7 is their
type. -/
structure MeetsR6 (c : Cfg) : Prop where
  romBelowRam : c.romBase.toNat < c.ramBase.toNat
  ramBelowStack : c.ramBase.toNat < c.stackBase.toNat
  stackBelowIo : c.stackBase.toNat < c.ioBase.toNat
  ioNotEmpty : c.ioBase.toNat < 256
  keyboardFromIoBase : c.ioBase.toNat ≤ c.kbdAddr.toNat
  keyboardBelowIoEnd : c.kbdAddr.toNat < 256
  opcodesDiffer : ∀ o p : Op, o ≠ p → c.opcodes.byteOf o ≠ c.opcodes.byteOf p
  flagBitsDiffer :
    c.flagBits.z ≠ c.flagBits.c ∧ c.flagBits.z ≠ c.flagBits.s ∧ c.flagBits.z ≠ c.flagBits.v ∧
    c.flagBits.z ≠ c.flagBits.i ∧ c.flagBits.c ≠ c.flagBits.s ∧ c.flagBits.c ≠ c.flagBits.v ∧
    c.flagBits.c ≠ c.flagBits.i ∧ c.flagBits.s ≠ c.flagBits.v ∧ c.flagBits.s ≠ c.flagBits.i ∧
    c.flagBits.v ≠ c.flagBits.i

/-! ## Numbers -/

/-- `s8(v)` (00_scope.md R12). -/
def s8 (v : Byte) : Int := if v.toNat < 128 then v.toNat else (v.toNat : Int) - 256

/-! ## Frames -/

/-- Every general register keeps its value. -/
def KeepsRegs (s t : State) : Prop := ∀ r, t.reg r = s.reg r

/-- Every general register but `d` keeps its value. -/
def KeepsRegsBut (s t : State) (d : Reg) : Prop := ∀ r, r ≠ d → t.reg r = s.reg r

/-- Every byte of MEM and the keyboard queue keep their values. -/
def KeepsMemory (s t : State) : Prop :=
  (∀ a, Memory.read t.mem a = Memory.read s.mem a) ∧ t.kbdFifo = s.kbdFifo

/-- IR, RUN, FAULT_INFO and the configuration keep their values. -/
def KeepsControl (s t : State) : Prop :=
  t.ir = s.ir ∧ t.run = s.run ∧ t.faultInfo = s.faultInfo ∧ t.cfg = s.cfg

/-- Every bit of FLAGS but C, S and V keeps its value. -/
def KeepsOtherFlags (s t : State) : Prop :=
  ∀ p : Fin 8, p ≠ s.cfg.flagBits.c → p ≠ s.cfg.flagBits.s → p ≠ s.cfg.flagBits.v →
    flagAt t.flags p = flagAt s.flags p

/-- Everything but PC, the register `d` and FLAGS keeps its value. -/
def KeepsAllButRegAndFlags (s t : State) (d : Reg) : Prop :=
  KeepsRegsBut s t d ∧ t.sp = s.sp ∧ KeepsMemory s t ∧ KeepsControl s t

/-- Everything but PC and the register `d` keeps its value. -/
def KeepsAllButReg (s t : State) (d : Reg) : Prop :=
  KeepsAllButRegAndFlags s t d ∧ t.flags = s.flags

/-- Everything but PC keeps its value. -/
def KeepsAllButPc (s t : State) : Prop :=
  KeepsRegs s t ∧ t.sp = s.sp ∧ t.flags = s.flags ∧ KeepsMemory s t ∧ KeepsControl s t

/-! ## Transactions -/

/-- `MemRead(a, 1)` gave `v` between `s` and `t`: at `KBD_ADDR` the oldest queued byte, removed, or 0
from an empty queue; elsewhere MEM[a], the queue unchanged; MEM unchanged in either case
(20_memory.md R60; 60_exceptions.md R256). -/
def ReadEffect (s t : State) (a v : Byte) : Prop :=
  (a = s.cfg.kbdAddr → s.kbdFifo = [] → v = 0 ∧ t.kbdFifo = []) ∧
  (a = s.cfg.kbdAddr → ∀ c rest, s.kbdFifo = c :: rest → v = c ∧ t.kbdFifo = rest) ∧
  (a ≠ s.cfg.kbdAddr → v = Memory.read s.mem a ∧ t.kbdFifo = s.kbdFifo) ∧
  ∀ x, Memory.read t.mem x = Memory.read s.mem x

/-- `MemWrite(a, 1, v)` happened between `s` and `t`: at `KBD_ADDR` the byte joins the queue's tail
and MEM is unchanged; elsewhere MEM[a] is the byte, every other byte of MEM and the queue are
unchanged (20_memory.md R61; 60_exceptions.md R257). -/
def WriteEffect (s t : State) (a v : Byte) : Prop :=
  (a = s.cfg.kbdAddr → t.kbdFifo = s.kbdFifo ++ [v] ∧
    ∀ x, Memory.read t.mem x = Memory.read s.mem x) ∧
  (a ≠ s.cfg.kbdAddr → t.kbdFifo = s.kbdFifo ∧ Memory.read t.mem a = v ∧
    ∀ x, x ≠ a → Memory.read t.mem x = Memory.read s.mem x)

/-- The address an instruction's data store goes to, if it has one (20_memory.md R63;
10_state.md R41). -/
def storeAddr (i : Instr) (s : State) : Option Byte :=
  match i with
  | .str a _ | .out a _ => some a
  | .push _ | .jal _ _ | .jalr _ _ => some s.sp
  | _ => none

/-- The address an instruction's data load comes from, if it has one. -/
def loadAddr (i : Instr) (s : State) : Option Byte :=
  match i with
  | .ldr _ a | .inp _ a => some a
  | .pop _ => some (s.sp + 1)
  | .ret => some s.sp
  | _ => none

/-! ## Encodings and sequences -/

/-- The operand bytes after opcode `o` decode to an instruction with exactly that machine code, unless
a register byte is above 7: then the first such byte is rejected (30_encoding.md R81, R97). -/
def RegisterBytesChecked (m : OpcodeMap) (o : Op) : Prop :=
  ∀ bs : List Byte, bs.length = o.shapes.length →
    match firstIllegal o.shapes bs with
    | some b => decode m (m.byteOf o :: bs) = .error (.illegalRegister b)
    | none => ∃ i, decode m (m.byteOf o :: bs) = .ok (i, []) ∧ encode m i = m.byteOf o :: bs

/-- How many bytes a step at this state fetches: the opcode alone if it is unassigned, else the whole
instruction (10_state.md R40 steps 2 to 4). -/
def State.fetchLength (s : State) : Nat :=
  match s.cfg.opcodes.lookup (s.memRead s.pc).1 with
  | none => 1
  | some o => o.length

/-- What a step does once it has read opcode `op` of mnemonic `o` and its operand bytes: the first
register byte above 7 faults and nothing else happens; if there is none, the instruction with exactly
these bytes is performed (10_state.md R40 steps 5 and 6; 60_exceptions.md R242, R245; the fault and its form are the spec's
decisions D14 and D15, log 12). -/
def FaultsOnRegisterBytesOnly (o : Op) : Prop :=
  ∀ (s s1 s2 : State) (op : Byte) (bs : List Byte), s.run = .running →
    s.memRead s.pc = (op, s1) → s.cfg.opcodes.lookup op = some o →
    s1.readBytes o.shapes.length (s.pc + 1) = (bs, s2) →
    match firstIllegal o.shapes bs with
    | some b =>
      step s = .next
        { s2 with
          run := .faulted
          faultInfo := some { cause := .illegalRegister, addr := s.pc, byte := b } }
    | none => ∃ i, i.op = o ∧ encode s.cfg.opcodes i = op :: bs ∧ step s = exec i s2

/-- The instruction's machine code is `bytes`, which decode to it; `opcode` is the default of its
opcode parameter; and the only fault of its mnemonic before it is performed is a register byte above
7. -/
def EncodedAs (m : OpcodeMap) (i : Instr) (opcode : Byte) (bytes : List Byte) : Prop :=
  defaultOpcodes.byteOf i.op = opcode ∧ encode m i = bytes ∧ decode m bytes = .ok (i, []) ∧
    FaultsOnRegisterBytesOnly i.op

/-- What R185 and the rule of one branch say of it: `opcode` is its opcode byte and `dflt` the default
of that; it is taken exactly when `cond`, to `(A + 3 + sext_8(off)) mod 256`, else to `A + 4`; nothing
but PC changes. -/
def BranchLaw (s : State) (i : Instr) (dflt opcode : Byte) (s1 s2 : Reg) (off : Byte)
    (cond : Prop) : Prop :=
  EncodedAs s.cfg.opcodes i dflt [opcode, s1.toByte, s2.toByte, off] ∧
  ∃ t, exec i s = .next t ∧
    (cond → (t.pc.toNat : Int) = ((s.pc.toNat : Int) + 3 + s8 off) % 256) ∧
    (¬ cond → t.pc = s.pc + 4) ∧ KeepsAllButPc s t

/-- Instructions performed one after the other. -/
def execAll : List Instr → State → Host.Outcome State Fault Refusal
  | [], s => .next s
  | i :: rest, s =>
    match exec i s with
    | .next t => execAll rest t
    | .fault r => .fault r
    | .refused r => .refused r

/-- `n` steps of the core, by the host's own runner (Host/Core.lean). -/
def runSteps (n : Nat) (s : State) : Host.Outcome State Fault Refusal :=
  Host.Core.run Sys2Proof.core n s

/-- The host's batches, one after the other, each of its own number of steps (10_state.md R44). -/
def runBatches : List Nat → State → Host.Outcome State Fault Refusal
  | [], s => .next s
  | n :: rest, s =>
    match runSteps n s with
    | .next t => runBatches rest t
    | .fault r => .fault r
    | .refused r => .refused r

/-- `n` reads of the keyboard, and the bytes they gave in order. -/
def drainKeyboard : Nat → State → List Byte × State
  | 0, s => ([], s)
  | n + 1, s =>
    let (b, s1) := s.memRead s.cfg.kbdAddr
    let (bs, s2) := drainKeyboard n s1
    (b :: bs, s2)

end Sys2Proof.Machine
end

