-- ==== Sys2Proof/Certificates/Slice0/Obligations.lean ====
section
/-! DEFINITION. The statements for the provers. Each docstring names the rule it formalises, or says
that it rests on a decision of the spec (D<n> of 92_eei_decisions.md) or of the model (log n). -/

open Sys2Proof Sys2Proof.Machine

/-! ## Arithmetic -/

/-- R124, whole: encoding, result, C, S, V, PC, faults and everything unchanged. -/
def Obligations.AddInstruction : Prop :=
  ∀ (s : State) (d s1 s2 : Reg), s.cfg.wf = true →
    EncodedAs s.cfg.opcodes (.add d s1 s2) 0x01
      [s.cfg.opcodes.add, d.toByte, s1.toByte, s2.toByte] ∧
    ∃ t, exec (.add d s1 s2) s = .next t ∧
      (t.reg d).toNat = ((s.reg s1).toNat + (s.reg s2).toNat) % 256 ∧
      (t.flagC = true ↔ (s.reg s1).toNat + (s.reg s2).toNat > 255) ∧
      t.flagS = (t.reg d).getLsbD 7 ∧
      (t.flagV = true ↔ s8 (s.reg s1) + s8 (s.reg s2) < -128 ∨
        s8 (s.reg s1) + s8 (s.reg s2) > 127) ∧
      t.pc = s.pc + 4 ∧ KeepsOtherFlags s t ∧ KeepsAllButRegAndFlags s t d

/-- 40_arithmetic.md section 3 (R126). The operand order rests on the spec's decision D8. -/
def Obligations.SubInstruction : Prop :=
  ∀ (s : State) (d s1 s2 : Reg), s.cfg.wf = true →
    EncodedAs s.cfg.opcodes (.sub d s1 s2) 0x02
      [s.cfg.opcodes.sub, d.toByte, s1.toByte, s2.toByte] ∧
    ∃ t, exec (.sub d s1 s2) s = .next t ∧
      ((t.reg d).toNat : Int) = (((s.reg s1).toNat : Int) - (s.reg s2).toNat) % 256 ∧
      (t.flagC = true ↔ (s.reg s1).toNat < (s.reg s2).toNat) ∧
      t.flagS = (t.reg d).getLsbD 7 ∧
      (t.flagV = true ↔ s8 (s.reg s1) - s8 (s.reg s2) < -128 ∨
        s8 (s.reg s1) - s8 (s.reg s2) > 127) ∧
      t.pc = s.pc + 4 ∧ KeepsOtherFlags s t ∧ KeepsAllButRegAndFlags s t d

/-- 40_arithmetic.md section 4 (R128), for every `MUL_OVF`. The shape rests on D8; that V is a
function of the two operands, and its default, on D11. -/
def Obligations.MulInstruction : Prop :=
  ∀ (s : State) (d s1 s2 : Reg), s.cfg.wf = true →
    EncodedAs s.cfg.opcodes (.mul d s1 s2) 0x03
      [s.cfg.opcodes.mul, d.toByte, s1.toByte, s2.toByte] ∧
    ∃ t, exec (.mul d s1 s2) s = .next t ∧
      (t.reg d).toNat = ((s.reg s1).toNat * (s.reg s2).toNat) % 256 ∧
      (t.flagC = true ↔ (s.reg s1).toNat * (s.reg s2).toNat > 255) ∧
      t.flagS = (t.reg d).getLsbD 7 ∧
      (s.cfg.mulOvf = .signAgreement → (t.flagV = true ↔
        (s.reg s1).getLsbD 7 = (s.reg s2).getLsbD 7 ∧
        (t.reg d).getLsbD 7 ≠ (s.reg s1).getLsbD 7)) ∧
      (∀ ones, s.cfg.mulOvf = .graph ones →
        (t.flagV = true ↔ (s.reg s1, s.reg s2) ∈ ones)) ∧
      t.pc = s.pc + 4 ∧ KeepsOtherFlags s t ∧ KeepsAllButRegAndFlags s t d

/-- 00_scope.md section 4, D11; log 9: every function of two bytes is the `MUL_OVF` of some
configuration, so a statement over all configurations holds for every heuristic. -/
def Obligations.EveryMulOverflowIsConfigurable : Prop :=
  ∀ f : Byte → Byte → Bool, ∃ ones, ∀ (c : Cfg) (a b : Byte),
    mulOverflow { c with mulOvf := .graph ones } a b = f a b

/-- 40_arithmetic.md section 5 (R130): DIV by a nonzero divisor. The shape rests on D8, S unchanged
on D12. -/
def Obligations.DivInstruction : Prop :=
  ∀ (s : State) (d s1 s2 : Reg), s.cfg.wf = true → s.reg s2 ≠ 0 →
    EncodedAs s.cfg.opcodes (.div d s1 s2) 0x04
      [s.cfg.opcodes.div, d.toByte, s1.toByte, s2.toByte] ∧
    ∃ t, exec (.div d s1 s2) s = .next t ∧
      (t.reg d).toNat = (s.reg s1).toNat / (s.reg s2).toNat ∧
      t.flagC = false ∧ t.flagV = false ∧ t.flagS = s.flagS ∧
      t.pc = s.pc + 4 ∧ KeepsOtherFlags s t ∧ KeepsAllButRegAndFlags s t d

/-- 40_arithmetic.md section 5 (R131), 60_exceptions.md section 1 (R243). That DIV by 0 faults is the
spec's decision D13, the form of a fault and its cause code D14 (log 12). -/
def Obligations.DivByZeroFaults : Prop :=
  ∀ (s : State) (d s1 s2 : Reg), s.reg s2 = 0 →
    FaultCause.divideByZero.code = 3 ∧
    exec (.div d s1 s2) s = .next
      { s with
        run := .faulted
        faultInfo := some { cause := .divideByZero, addr := s.pc, byte := s2.toByte } }

/-- R125 and R127, which the spec marks as general knowledge: the range tests of V are the bit tests,
for all operand pairs. -/
def Obligations.OverflowRangeTestsAreBitTests : Prop :=
  ∀ a b : Byte,
    (overflowOf (a.toInt + b.toInt) = true ↔
      a.getLsbD 7 = b.getLsbD 7 ∧ (a + b).getLsbD 7 ≠ a.getLsbD 7) ∧
    (overflowOf (a.toInt - b.toInt) = true ↔
      a.getLsbD 7 ≠ b.getLsbD 7 ∧ (a - b).getLsbD 7 ≠ a.getLsbD 7)

/-! ## Logic and shift -/

/-- 41_logic_shift.md (R142, R143, R144): every bit of the results of AND, OR and XOR, and the frame.
The operand shapes rest on D8. -/
def Obligations.AndOrXorInstructions : Prop :=
  ∀ (s : State) (d s1 s2 : Reg), s.cfg.wf = true →
    (EncodedAs s.cfg.opcodes (.and d s1 s2) 0x05
        [s.cfg.opcodes.and, d.toByte, s1.toByte, s2.toByte] ∧
      ∃ t, exec (.and d s1 s2) s = .next t ∧
        (∀ k < 8, (t.reg d).getLsbD k = ((s.reg s1).getLsbD k && (s.reg s2).getLsbD k)) ∧
        t.pc = s.pc + 4 ∧ KeepsAllButReg s t d) ∧
    (EncodedAs s.cfg.opcodes (.or d s1 s2) 0x06
        [s.cfg.opcodes.or, d.toByte, s1.toByte, s2.toByte] ∧
      ∃ t, exec (.or d s1 s2) s = .next t ∧
        (∀ k < 8, (t.reg d).getLsbD k = ((s.reg s1).getLsbD k || (s.reg s2).getLsbD k)) ∧
        t.pc = s.pc + 4 ∧ KeepsAllButReg s t d) ∧
    (EncodedAs s.cfg.opcodes (.xor d s1 s2) 0x07
        [s.cfg.opcodes.xor, d.toByte, s1.toByte, s2.toByte] ∧
      ∃ t, exec (.xor d s1 s2) s = .next t ∧
        (∀ k < 8, (t.reg d).getLsbD k = ((s.reg s1).getLsbD k != (s.reg s2).getLsbD k)) ∧
        t.pc = s.pc + 4 ∧ KeepsAllButReg s t d)

/-- 41_logic_shift.md (R145): NOT gives 255 minus the source. The operand shape rests on D9. -/
def Obligations.NotInstruction : Prop :=
  ∀ (s : State) (d r : Reg), s.cfg.wf = true →
    EncodedAs s.cfg.opcodes (.not d r) 0x08 [s.cfg.opcodes.not, d.toByte, r.toByte] ∧
    ∃ t, exec (.not d r) s = .next t ∧
      (t.reg d).toNat = 255 - (s.reg r).toNat ∧
      (∀ k < 8, (t.reg d).getLsbD k = !(s.reg r).getLsbD k) ∧
      t.pc = s.pc + 3 ∧ KeepsAllButReg s t d

/-- 41_logic_shift.md (R146). The shape, the whole-byte amount and 0 from amount 8 on rest on D10. -/
def Obligations.ShiftLeftInstruction : Prop :=
  ∀ (s : State) (d s1 s2 : Reg), s.cfg.wf = true →
    EncodedAs s.cfg.opcodes (.shl d s1 s2) 0x09
      [s.cfg.opcodes.shl, d.toByte, s1.toByte, s2.toByte] ∧
    ∃ t, exec (.shl d s1 s2) s = .next t ∧
      ((s.reg s2).toNat ≥ 8 → t.reg d = 0) ∧
      ((s.reg s2).toNat < 8 →
        (t.reg d).toNat = ((s.reg s1).toNat * 2 ^ (s.reg s2).toNat) % 256) ∧
      t.pc = s.pc + 4 ∧ KeepsAllButReg s t d

/-- 41_logic_shift.md (R147). The shape, the amount and the logical kind rest on D10. -/
def Obligations.ShiftRightInstruction : Prop :=
  ∀ (s : State) (d s1 s2 : Reg), s.cfg.wf = true →
    EncodedAs s.cfg.opcodes (.shr d s1 s2) 0x0A
      [s.cfg.opcodes.shr, d.toByte, s1.toByte, s2.toByte] ∧
    ∃ t, exec (.shr d s1 s2) s = .next t ∧
      ((s.reg s2).toNat ≥ 8 → t.reg d = 0) ∧
      ((s.reg s2).toNat < 8 →
        (t.reg d).toNat = (s.reg s1).toNat / 2 ^ (s.reg s2).toNat) ∧
      t.pc = s.pc + 4 ∧ KeepsAllButReg s t d

/-! ## Call and return, stack -/

/-- R161, whole: the link goes to rdest and to the byte at SP, SP goes up, PC takes the address. -/
def Obligations.JalInstruction : Prop :=
  ∀ (s : State) (d : Reg) (addr : Byte), s.cfg.wf = true → Memory.wf s.mem = true →
    EncodedAs s.cfg.opcodes (.jal d addr) 0x0B [s.cfg.opcodes.jal, d.toByte, addr] ∧
    ∃ t, exec (.jal d addr) s = .next t ∧
      t.reg d = s.pc + 3 ∧ WriteEffect s t s.sp (s.pc + 3) ∧ t.sp = s.sp + 1 ∧ t.pc = addr ∧
      KeepsRegsBut s t d ∧ t.flags = s.flags ∧ KeepsControl s t

/-- 42_call_return.md (R163), for both values of `JALR_SAME_REG`, which rests on D18. -/
def Obligations.JalrInstruction : Prop :=
  ∀ (s : State) (d r : Reg), s.cfg.wf = true → Memory.wf s.mem = true →
    EncodedAs s.cfg.opcodes (.jalr d r) 0x0C [s.cfg.opcodes.jalr, d.toByte, r.toByte] ∧
    ∃ t, exec (.jalr d r) s = .next t ∧
      t.reg d = s.pc + 3 ∧ WriteEffect s t s.sp (s.pc + 3) ∧ t.sp = s.sp + 1 ∧
      (d ≠ r ∨ s.cfg.jalrSameReg = .sourceFirst → t.pc = s.reg r) ∧
      (d = r ∧ s.cfg.jalrSameReg = .destFirst → t.pc = s.pc + 3) ∧
      KeepsRegsBut s t d ∧ t.flags = s.flags ∧ KeepsControl s t

/-- R165, whole: the byte at SP is read, SP goes up, PC takes the byte, no register changes. -/
def Obligations.RetInstruction : Prop :=
  ∀ s : State, s.cfg.wf = true →
    EncodedAs s.cfg.opcodes .ret 0x0D [s.cfg.opcodes.ret] ∧
    ∃ t, exec .ret s = .next t ∧
      ReadEffect s t s.sp t.pc ∧ t.sp = s.sp + 1 ∧
      KeepsRegs s t ∧ t.flags = s.flags ∧ KeepsControl s t

/-- R176, whole: the register goes to the byte at SP, then SP goes down. -/
def Obligations.PushInstruction : Prop :=
  ∀ (s : State) (r : Reg), s.cfg.wf = true → Memory.wf s.mem = true →
    EncodedAs s.cfg.opcodes (.push r) 0x0E [s.cfg.opcodes.push, r.toByte] ∧
    ∃ t, exec (.push r) s = .next t ∧
      WriteEffect s t s.sp (s.reg r) ∧ t.sp = s.sp - 1 ∧ t.pc = s.pc + 2 ∧
      KeepsRegs s t ∧ t.flags = s.flags ∧ KeepsControl s t

/-- R178, whole: SP goes up, then the byte at the new SP goes to the register. -/
def Obligations.PopInstruction : Prop :=
  ∀ (s : State) (d : Reg), s.cfg.wf = true →
    EncodedAs s.cfg.opcodes (.pop d) 0x0F [s.cfg.opcodes.pop, d.toByte] ∧
    ∃ t, exec (.pop d) s = .next t ∧
      t.sp = s.sp + 1 ∧ ReadEffect s t (s.sp + 1) (t.reg d) ∧ t.pc = s.pc + 2 ∧
      KeepsRegsBut s t d ∧ t.flags = s.flags ∧ KeepsControl s t

/-- 43_stack.md (R179, derived there): pops return what pushes stored, last first, if no slot is a
device address; more than 256 pushes would reuse a slot. -/
def Obligations.PopsReturnPushesInReverse : Prop :=
  ∀ (s : State) (rs : List Reg) (d : Reg) (k : Nat) (hk : k < rs.length),
    Memory.wf s.mem = true → rs.length ≤ 256 →
    (∀ j < rs.length, s.sp - BitVec.ofNat 8 j ≠ s.cfg.kbdAddr) →
    ∃ t, execAll (rs.map Instr.push ++ List.replicate (k + 1) (Instr.pop d)) s = .next t ∧
      t.reg d = s.reg (rs[rs.length - 1 - k]'(by omega)) ∧
      t.sp = s.sp - BitVec.ofNat 8 rs.length + BitVec.ofNat 8 (k + 1)

/-- 70_reset_and_hazards.md sections on the two stack disciplines (R292, R293, derived there): a bare
RET after JAL reads the byte above the link; a PUSH between them makes RET return to the link. -/
def Obligations.ReturnIdioms : Prop :=
  ∀ (s : State) (d r : Reg) (f : Byte), Memory.wf s.mem = true →
    s.sp ≠ s.cfg.kbdAddr → s.sp + 1 ≠ s.cfg.kbdAddr →
    (∃ t, execAll [.jal d f, .ret] s = .next t ∧
      t.pc = Memory.read s.mem (s.sp + 1) ∧ t.sp = s.sp + 2) ∧
    (∃ t, execAll [.jal d f, .push r, .ret] s = .next t ∧
      t.pc = s.pc + 3 ∧ t.sp = s.sp + 1)

/-! ## Branches -/

/-- R187, R188 with R185, whole: BEQ and BNE. -/
def Obligations.EqualityBranches : Prop :=
  ∀ (s : State) (s1 s2 : Reg) (off : Byte), s.cfg.wf = true →
    BranchLaw s (.beq s1 s2 off) 0x10 s.cfg.opcodes.beq s1 s2 off
      ((s.reg s1).toNat = (s.reg s2).toNat) ∧
    BranchLaw s (.bne s1 s2 off) 0x11 s.cfg.opcodes.bne s1 s2 off
      ((s.reg s1).toNat ≠ (s.reg s2).toNat)

/-- R189 to R192 with R185, whole: BLT, BGE, BLE and BGT compare unsigned. -/
def Obligations.UnsignedOrderBranches : Prop :=
  ∀ (s : State) (s1 s2 : Reg) (off : Byte), s.cfg.wf = true →
    BranchLaw s (.blt s1 s2 off) 0x12 s.cfg.opcodes.blt s1 s2 off
      ((s.reg s1).toNat < (s.reg s2).toNat) ∧
    BranchLaw s (.bge s1 s2 off) 0x13 s.cfg.opcodes.bge s1 s2 off
      ((s.reg s1).toNat ≥ (s.reg s2).toNat) ∧
    BranchLaw s (.ble s1 s2 off) 0x14 s.cfg.opcodes.ble s1 s2 off
      ((s.reg s1).toNat ≤ (s.reg s2).toNat) ∧
    BranchLaw s (.bgt s1 s2 off) 0x15 s.cfg.opcodes.bgt s1 s2 off
      ((s.reg s1).toNat > (s.reg s2).toNat)

/-- 30_encoding.md section 2 (R87) and 44_branch.md section 1 (R186, D7): the signed displacement is
the unsigned byte modulo 256, and the offset `T - A - 3` reaches `T`. -/
def Obligations.BranchOffsetsReachEveryTarget : Prop :=
  ∀ a off target : Byte,
    branchTarget a off = a + 3 + off ∧
    (branchTarget a off = target ↔ off = target - a - 3)

/-! ## Loads, stores, moves, device I/O -/

/-- R201, whole: LDR. -/
def Obligations.LdrInstruction : Prop :=
  ∀ (s : State) (d : Reg) (addr : Byte), s.cfg.wf = true →
    EncodedAs s.cfg.opcodes (.ldr d addr) 0x16 [s.cfg.opcodes.ldr, d.toByte, addr] ∧
    ∃ t, exec (.ldr d addr) s = .next t ∧
      ReadEffect s t addr (t.reg d) ∧ t.pc = s.pc + 3 ∧
      KeepsRegsBut s t d ∧ t.sp = s.sp ∧ t.flags = s.flags ∧ KeepsControl s t

/-- R202, whole: STR. -/
def Obligations.StrInstruction : Prop :=
  ∀ (s : State) (addr : Byte) (r : Reg), s.cfg.wf = true → Memory.wf s.mem = true →
    EncodedAs s.cfg.opcodes (.str addr r) 0x17 [s.cfg.opcodes.str, addr, r.toByte] ∧
    ∃ t, exec (.str addr r) s = .next t ∧
      WriteEffect s t addr (s.reg r) ∧ t.pc = s.pc + 3 ∧
      KeepsRegs s t ∧ t.sp = s.sp ∧ t.flags = s.flags ∧ KeepsControl s t

/-- R216, whole: IN. -/
def Obligations.InInstruction : Prop :=
  ∀ (s : State) (d : Reg) (addr : Byte), s.cfg.wf = true →
    EncodedAs s.cfg.opcodes (.inp d addr) 0x1A [s.cfg.opcodes.inp, d.toByte, addr] ∧
    ∃ t, exec (.inp d addr) s = .next t ∧
      ReadEffect s t addr (t.reg d) ∧ t.pc = s.pc + 3 ∧
      KeepsRegsBut s t d ∧ t.sp = s.sp ∧ t.flags = s.flags ∧ KeepsControl s t

/-- R217, whole: OUT. -/
def Obligations.OutInstruction : Prop :=
  ∀ (s : State) (addr : Byte) (r : Reg), s.cfg.wf = true → Memory.wf s.mem = true →
    EncodedAs s.cfg.opcodes (.out addr r) 0x1B [s.cfg.opcodes.out, addr, r.toByte] ∧
    ∃ t, exec (.out addr r) s = .next t ∧
      WriteEffect s t addr (s.reg r) ∧ t.pc = s.pc + 3 ∧
      KeepsRegs s t ∧ t.sp = s.sp ∧ t.flags = s.flags ∧ KeepsControl s t

/-- R203 and R204, whole: LDI and MOV. -/
def Obligations.LdiAndMovInstructions : Prop :=
  ∀ (s : State) (d r : Reg) (imm : Byte), s.cfg.wf = true →
    (EncodedAs s.cfg.opcodes (.ldi d imm) 0x18 [s.cfg.opcodes.ldi, d.toByte, imm] ∧
      ∃ t, exec (.ldi d imm) s = .next t ∧
        t.reg d = imm ∧ t.pc = s.pc + 3 ∧ KeepsAllButReg s t d) ∧
    (EncodedAs s.cfg.opcodes (.mov d r) 0x19 [s.cfg.opcodes.mov, d.toByte, r.toByte] ∧
      ∃ t, exec (.mov d r) s = .next t ∧
        t.reg d = s.reg r ∧ t.pc = s.pc + 3 ∧ KeepsAllButReg s t d)

/-- 46_io.md (R215, derived there): IN is LDR and OUT is STR in every effect. -/
def Obligations.InIsLdrAndOutIsStr : Prop :=
  ∀ (s : State) (r : Reg) (addr : Byte),
    exec (.inp r addr) s = exec (.ldr r addr) s ∧ exec (.out addr r) s = exec (.str addr r) s

/-- 20_memory.md section 5 (R70, R74, D17): after a store to a plain address, wherever it lies, a load
of that address by LDR, IN or POP, and the next fetch there, give the stored byte. -/
def Obligations.StoresAreSeenByLoadsAndFetches : Prop :=
  ∀ (s : State) (addr : Byte) (r d : Reg), Memory.wf s.mem = true → addr ≠ s.cfg.kbdAddr →
    ∃ t, exec (.str addr r) s = .next t ∧
      (t.memRead addr).1 = s.reg r ∧
      (∃ u, exec (.ldr d addr) t = .next u ∧ u.reg d = s.reg r) ∧
      (∃ u, exec (.inp d addr) t = .next u ∧ u.reg d = s.reg r) ∧
      (∃ u, exec (.pop d) (t.setSp (addr - 1)) = .next u ∧ u.reg d = s.reg r) ∧
      (t.cfg.opcodes.lookup (s.reg r) = some .hlt → t.run = .running →
        ∃ u, step (t.setPc addr) = .next u ∧ u.run = .halted)

/-! ## System -/

/-- R226, whole: NOP changes PC only. -/
def Obligations.NopInstruction : Prop :=
  ∀ s : State, s.cfg.wf = true →
    EncodedAs s.cfg.opcodes .nop 0x00 [s.cfg.opcodes.nop] ∧
    exec .nop s = .next { s with pc := s.pc + 1 }

/-- 47_system.md (R227): HLT enters the halted state; that PC is advanced rests on D19. -/
def Obligations.HltInstruction : Prop :=
  ∀ s : State, s.cfg.wf = true →
    EncodedAs s.cfg.opcodes .hlt 0x1C [s.cfg.opcodes.hlt] ∧
    exec .hlt s = .next { s with run := .halted, pc := s.pc + 1 }

/-- 10_state.md section 6 (R34): however long the host lets a halted or faulted core run, nothing
changes; only key events change anything, and they append to the keyboard queue. R34 says that such a
core has no step; that the model answers the same state for one is log 7 (DEDUCED). -/
def Obligations.HaltedAndFaultedAreTerminal : Prop :=
  ∀ s : State, s.run ≠ .running →
    (∀ n, runSteps n s = .next s) ∧
    (∀ as : List Action, ∃ q, runActions as s = .next { s with kbdFifo := s.kbdFifo ++ q })

/-- 10_state.md section 6 (R33): the halted state is entered only via HLT. -/
def Obligations.HaltedOnlyViaHlt : Prop :=
  ∀ s t : State, s.run = .running → step s = .next t → t.run = .halted →
    s.fetch.1 = .ok .hlt

/-! ## Fetch, decode and step -/

/-- 10_state.md section 7 (R40, R41; D24): a step reads the opcode through the dispatcher, then the
operand bytes in ascending order, and performs the instruction they decode to in the state the reads
leave. Nothing is added around `exec`. -/
def Obligations.StepRunsTheFetchedInstruction : Prop :=
  ∀ (s s1 s2 : State) (op : Byte) (o : Op) (bs : List Byte) (i : Instr),
    s.run = .running → s.memRead s.pc = (op, s1) → s.cfg.opcodes.lookup op = some o →
    s1.readBytes o.shapes.length (s.pc + 1) = (bs, s2) →
    decode s.cfg.opcodes (op :: bs) = .ok (i, []) →
    step s = exec i s2

/-- 10_state.md section 7 (R40): when the bytes of memory at PC decode to an instruction and none of
its bytes lies at the device address, the step is that instruction's meaning in the same state. -/
def Obligations.StepRunsTheInstructionInMemory : Prop :=
  ∀ (s : State) (i : Instr) (rest : List Byte), s.run = .running →
    decode s.cfg.opcodes [Memory.read s.mem s.pc, Memory.read s.mem (s.pc + 1),
      Memory.read s.mem (s.pc + 2), Memory.read s.mem (s.pc + 3)] = .ok (i, rest) →
    (∀ k < i.length, s.pc + BitVec.ofNat 8 k ≠ s.cfg.kbdAddr) →
    step s = exec i s

/-- 60_exceptions.md section 1 (R241): an unassigned opcode byte faults; the state is the one the
opcode read leaves, with RUN and FAULT_INFO = (1, A, opcode byte) recorded. That a fatal error is RUN =
faulted with FAULT_INFO, and the cause code, are the spec's decision D14 (log 6, log 12). -/
def Obligations.UnassignedOpcodeFaults : Prop :=
  ∀ (s s1 : State) (op : Byte), s.run = .running → s.memRead s.pc = (op, s1) →
    op ∉ s.cfg.opcodes.toList →
    FaultCause.illegalOpcode.code = 1 ∧
    step s = .next
      { s1 with
        run := .faulted
        faultInfo := some { cause := .illegalOpcode, addr := s.pc, byte := op } }

/-- 60_exceptions.md section 1 (R242, R246): the first register byte above 7 faults, before the
instruction does anything, so before a zero divisor is looked at. That it faults is the spec's decision
D15, the form of a fault and its cause code D14 (log 12). -/
def Obligations.IllegalRegisterByteFaults : Prop :=
  ∀ (s s1 s2 : State) (op b : Byte) (o : Op) (bs : List Byte),
    s.run = .running → s.memRead s.pc = (op, s1) → s.cfg.opcodes.lookup op = some o →
    s1.readBytes o.shapes.length (s.pc + 1) = (bs, s2) → firstIllegal o.shapes bs = some b →
    FaultCause.illegalRegister.code = 2 ∧
    step s = .next
      { s2 with
        run := .faulted
        faultInfo := some { cause := .illegalRegister, addr := s.pc, byte := b } }

/-- 10_state.md section 7 (R43), 60_exceptions.md section 1 (R245); the spec's decision D14: a step
that faults changes RUN, FAULT_INFO and, exactly if a byte its fetch read lies at `KBD_ADDR`, the queue,
which loses its oldest byte and no more; nothing else. FAULT_INFO names the instruction's address. -/
def Obligations.FaultsArePrecise : Prop :=
  ∀ s t : State, s.run = .running → step s = .next t → t.run = .faulted →
    ∃ cause b queue,
      t = { s with
            run := .faulted
            faultInfo := some { cause := cause, addr := s.pc, byte := b }
            kbdFifo := queue } ∧
      ((∃ k < s.fetchLength, s.pc + BitVec.ofNat 8 k = s.cfg.kbdAddr) →
        queue = s.kbdFifo.tail) ∧
      ((∀ k < s.fetchLength, s.pc + BitVec.ofNat 8 k ≠ s.cfg.kbdAddr) → queue = s.kbdFifo)

/-- 60_exceptions.md section 1 (R244, derived there): the only instruction whose performance faults is
DIV by zero. -/
def Obligations.OnlyDivByZeroFaultsInExecution : Prop :=
  ∀ (i : Instr) (s t : State), s.run = .running → exec i s = .next t →
    (t.run = .faulted ↔ ∃ d s1 s2, i = .div d s1 s2 ∧ s.reg s2 = 0)

/-- 93_implementation_defined.md section 1, last paragraph: the machine never gets stuck. That a fault
is a next state is log 6, that a stopped core steps to itself log 7. -/
def Obligations.EveryStateHasANextState : Prop :=
  ∀ s : State, ∃ t, step s = .next t

/-- 10_state.md section 7 (R44): however the host cuts a run into batches, the states are those of one
run of all the steps; a run ends when RUN leaves `running`: further steps answer the same state, which is
log 7 (DEDUCED), as R34 gives a stopped core no step; until then every further step is taken. -/
def Obligations.BatchBoundariesHaveNoEffect : Prop :=
  ∀ s : State,
    (∀ batches : List Nat, runBatches batches s = runSteps batches.sum s) ∧
    (∀ (n : Nat) (t : State), runSteps n s = .next t → t.run ≠ .running →
      ∀ k, runSteps (n + k) s = .next t) ∧
    (∀ (n : Nat) (t : State), runSteps n s = .next t → runSteps (n + 1) s = step t)

/-! ## Encoding -/

/-- 30_encoding.md section 1 (R81): an instruction's bytes decode to it, with what follows left over, for every assignment of
pairwise different opcodes. -/
def Obligations.DecodeOfEncode : Prop :=
  ∀ (m : OpcodeMap) (i : Instr) (rest : List Byte), m.wf = true →
    decode m (encode m i ++ rest) = .ok (i, rest)

/-- 30_encoding.md section 1 (R81, R82): bytes that decode are the machine code of what they decode
to: no bit is ignored. -/
def Obligations.EncodeOfDecode : Prop :=
  ∀ (m : OpcodeMap) (bytes rest : List Byte) (i : Instr),
    decode m bytes = .ok (i, rest) → bytes = encode m i ++ rest

/-- 30_encoding.md section 4 (R95; the default map is D5): exactly the unassigned opcode bytes are illegal; with the default map, 0x1D to 0xFF. -/
def Obligations.IllegalOpcodesAreTheUnassignedOnes : Prop :=
  (∀ (m : OpcodeMap) (op : Byte) (rest : List Byte),
    decode m (op :: rest) = .error (.illegalOpcode op) ↔ op ∉ m.toList) ∧
  (∀ op : Byte, op ∉ defaultOpcodes.toList ↔ 0x1D ≤ op.toNat)

/-- 30_encoding.md section 4 (R97; D15): for every mnemonic, register bytes above 7 are rejected, the
first in operand order, and no other operand byte is. -/
def Obligations.OnlyRegisterBytesAreChecked : Prop :=
  ∀ (m : OpcodeMap) (o : Op), m.wf = true → RegisterBytesChecked m o

/-- 30_encoding.md section 3 (R92): the worked encodings, both ways, and one word of every family. -/
def Obligations.WorkedEncodings : Prop :=
  decode defaultOpcodes [0x18, 0x00, 0x05] = .ok (.ldi .r0 5, []) ∧
  decode defaultOpcodes [0x01, 0x02, 0x00, 0x01] = .ok (.add .r2 .r0 .r1, []) ∧
  decode defaultOpcodes [0x17, 0x80, 0x00] = .ok (.str 0x80 .r0, []) ∧
  decode defaultOpcodes [0x11, 0x01, 0x03, 0xF5] = .ok (.bne .r1 .r3 0xF5, []) ∧
  decode defaultOpcodes [0x0B, 0x07, 0x10] = .ok (.jal .r7 0x10, []) ∧
  decode defaultOpcodes [0x0E, 0x00] = .ok (.push .r0, []) ∧
  decode defaultOpcodes [0x1C] = .ok (.hlt, []) ∧
  decode defaultOpcodes [0x08, 0x01, 0x00] = .ok (.not .r1 .r0, []) ∧
  decode defaultOpcodes [0x1B, 0xF0, 0x00] = .ok (.out 0xF0 .r0, []) ∧
  encode defaultOpcodes (.bne .r1 .r3 0xF5) = [0x11, 0x01, 0x03, 0xF5] ∧
  encode defaultOpcodes (.str 0x80 .r0) = [0x17, 0x80, 0x00]

/-! ## Dispatcher and keyboard -/

/-- R60 and R61, whole: an access at the keyboard's address is the device's and MEM is not accessed;
any other access is to MEM[a]. Nothing else changes. -/
def Obligations.DispatcherRoutesAccesses : Prop :=
  ∀ (s : State) (a v : Byte), Memory.wf s.mem = true →
    ReadEffect s (s.memRead a).2 a (s.memRead a).1 ∧
    (s.memRead a).2 = { s with kbdFifo := (s.memRead a).2.kbdFifo } ∧
    WriteEffect s (s.memWrite a v) a v ∧
    s.memWrite a v =
      { s with mem := (s.memWrite a v).mem, kbdFifo := (s.memWrite a v).kbdFifo }

/-- 60_exceptions.md section 5 (R255 to R258; D23): bytes leave the keyboard in the order they were
delivered, none dropped, merged or reordered, after those already queued; then reads give 0. -/
def Obligations.KeyboardDeliversInOrder : Prop :=
  ∀ (s : State) (cs : List Byte) (extra : Nat),
    drainKeyboard ((s.kbdFifo ++ cs).length + extra) (cs.foldl State.keyEvent s) =
      (s.kbdFifo ++ cs ++ List.replicate extra 0, { s with kbdFifo := [] })

/-- 60_exceptions.md sections 2 and 5 (R248, R258; D21, D23): a key event changes the keyboard queue and nothing else; it never changes PC. -/
def Obligations.KeyEventsAppendAndNothingElse : Prop :=
  ∀ (s : State) (c : Byte), perform s (.key c) = .next { s with kbdFifo := s.kbdFifo ++ [c] }

/-! ## Whole-machine rules -/

/-- 20_memory.md section 3 and 10_state.md R41: MEM changes at the computed store address only, and
the keyboard queue only by a data access at `KBD_ADDR`; a form that stores nothing leaves every byte. -/
def Obligations.DataAccessesGoWhereTheyAreComputed : Prop :=
  ∀ (i : Instr) (s t : State), exec i s = .next t →
    (∀ a, storeAddr i s = some a → ∀ x, x ≠ a → Memory.read t.mem x = Memory.read s.mem x) ∧
    (storeAddr i s = none → ∀ x, Memory.read t.mem x = Memory.read s.mem x) ∧
    (storeAddr i s ≠ some s.cfg.kbdAddr → loadAddr i s ≠ some s.cfg.kbdAddr →
      t.kbdFifo = s.kbdFifo)

/-- 10_state.md section 4, the table of R29: SP moves by the stack and call instructions only, in the
directions OX keeps apart. -/
def Obligations.StackPointerMoves : Prop :=
  ∀ (i : Instr) (s t : State), exec i s = .next t →
    (i.op = .push → t.sp = s.sp - 1) ∧
    (i.op = .pop ∨ i.op = .jal ∨ i.op = .jalr ∨ i.op = .ret → t.sp = s.sp + 1) ∧
    (i.op ≠ .push → i.op ≠ .pop → i.op ≠ .jal → i.op ≠ .jalr → i.op ≠ .ret → t.sp = s.sp)

/-- 10_state.md section 5, the table of R32: only ADD, SUB, MUL and DIV write FLAGS, and they write C,
S and V only (DIV not S, D12). -/
def Obligations.FlagWriters : Prop :=
  ∀ (i : Instr) (s t : State), exec i s = .next t →
    KeepsOtherFlags s t ∧
    (i.op ≠ .add → i.op ≠ .sub → i.op ≠ .mul → i.op ≠ .div → t.flags = s.flags)

/-- 10_state.md sections 1 and 4 (R20, R28, derived there): no step writes IR or the configuration. -/
def Obligations.StepsKeepIrAndConfiguration : Prop :=
  ∀ s t : State, step s = .next t → t.ir = s.ir ∧ t.cfg = s.cfg

/-- R297, whole: FLAGS steer nothing and no instruction copies them: two states that differ in FLAGS
only step to states that differ in FLAGS only. Zero is never set. -/
def Obligations.FlagsSteerNothing : Prop :=
  ∀ (s t : State) (f : Byte), step s = .next t →
    (∃ g, step { s with flags := f } = .next { t with flags := g }) ∧
    (s.cfg.wf = true → t.flagZ = s.flagZ)

/-- 20_memory.md section 3 (R62, derived there): the byte of MEM under the keyboard's address is
irrelevant. Changing it changes nothing else a step does. -/
def Obligations.ByteUnderKeyboardIsIrrelevant : Prop :=
  ∀ (s t : State) (v : Byte), Memory.wf s.mem = true → step s = .next t →
    step (s.setMem s.cfg.kbdAddr v) = .next (t.setMem s.cfg.kbdAddr v)

/-! ## Reset and invariants -/

/-- R45, whole: every construction sets PC, SP, IR and FLAGS and loads the image at the ROM base. -/
def Obligations.ConstructionSetsSpecialRegistersAndLoadsRom : Prop :=
  ∀ (c : Cfg) (image : List Byte) (g : Reg → Byte) (m : Byte → Byte) (s : State),
    construct c image g m = .ok s →
    s.sp = c.stackBase ∧ s.pc = c.romBase ∧ s.ir = 0 ∧ s.flags = 0 ∧
    (s.flagC = false ∧ s.flagS = false ∧ s.flagV = false ∧ s.flagZ = false ∧ s.flagI = false) ∧
    ∀ k (hk : k < image.length),
      Memory.read s.mem (c.romBase + BitVec.ofNat 8 k) = image[k]

/-- 70_reset_and_hazards.md section 1 (R281, R282; D25) and 10_state.md section 8 (R46 to R48; D20):
construction answers an error exactly when a constraint of 00_scope.md R6 or the image's size fails,
and otherwise a running machine whose registers and memory outside the image are the launch inputs. That
construction also refuses `IPF` = 0 is the model's choice (log 16). -/
def Obligations.ConstructionChecksAndLaunchInputs : Prop :=
  ∀ (c : Cfg) (image : List Byte) (g : Reg → Byte) (m : Byte → Byte),
    (¬ (MeetsR6 c ∧ 0 < c.ipf) → construct c image g m = .error .badConfiguration) ∧
    (MeetsR6 c → 0 < c.ipf → c.romBase.toNat + image.length > c.ramBase.toNat →
      construct c image g m = .error .imageTooLarge) ∧
    (MeetsR6 c → 0 < c.ipf → c.romBase.toNat + image.length ≤ c.ramBase.toNat →
      ∃ s, construct c image g m = .ok s ∧ s.run = .running ∧ s.faultInfo = none ∧
        s.kbdFifo = [] ∧ s.cfg = c ∧ (∀ r, s.reg r = g r) ∧
        ∀ a : Byte, a.toNat < c.romBase.toNat ∨ c.romBase.toNat + image.length ≤ a.toNat →
          Memory.read s.mem a = m a)

/-- The model's choice (log 3, log 4, log 5): the state after reset is the construction with the
default configuration, an empty image and launch inputs 0. -/
def Obligations.ResetIsAConstruction : Prop :=
  construct defaultCfg [] (fun _ => 0) (fun _ => 0) = .ok State.reset

/-- The invariant holds at reset. -/
def Obligations.ResetIsGood : Prop := State.reset.Inv

/-- 00_scope.md R6, 10_state.md R20, R28, R32: every step keeps the invariant: the configuration's
constraints, canonical memory, IR = 0, Z, I and the unused flag bits 0, and FAULT_INFO recorded
exactly in the faulted state. -/
def Obligations.StepsKeepTheInvariant : Prop :=
  ∀ s t : State, s.Inv → step s = .next t → t.Inv

/-- The same of every state that a machine reaches from any construction under any interleaving of
steps and key events (60_exceptions.md R259), and every such state can take either action. R34 gives a
halted or faulted core no step: that the core's action answers the same state there is log 7 (DEDUCED),
and that a fault of the core is a next state is log 6 (DEDUCED). -/
def Obligations.ReachableStatesAreGood : Prop :=
  ∀ s : State, Reachable s → s.Inv ∧ ∀ a : Action, ∃ t, perform s a = .next t ∧ Reachable t
end

