-- ==== Sys2Proof/Laws/Decode.lean ====
section
/-! SUPPORT. The opcode map and the register bytes, both ways. -/

namespace Sys2Proof

theorem Op.mem_all (o : Op) : o ∈ Op.all := by cases o <;> decide

/-- Lengths are 1 to 4 bytes. -/
theorem Op.length_bounds (o : Op) : 1 ≤ o.length ∧ o.length ≤ 4 := by cases o <;> decide

theorem OpcodeMap.toList_eq (m : OpcodeMap) : m.toList = Op.all.map m.byteOf := rfl

/-- In a list whose images are pairwise different, an element is found by its image. -/
theorem find_image {α β : Type} [BEq β] [LawfulBEq β] (f : α → β) {l : List α}
    (h : (l.map f).Nodup) {a : α} (ha : a ∈ l) : l.find? (fun x => f x == f a) = some a := by
  induction l with
  | nil => cases ha
  | cons x xs ih =>
    simp only [List.map_cons, List.nodup_cons, List.mem_map, not_exists, not_and] at h
    rcases List.mem_cons.1 ha with rfl | hx
    · simp
    · have hne : f x ≠ f a := fun e => h.1 a hx e.symm
      rw [List.find?_cons_of_neg (by simpa using hne)]
      exact ih h.2 hx

/-- With pairwise different opcodes every mnemonic is found by its opcode byte. -/
theorem OpcodeMap.lookup_byteOf {m : OpcodeMap} (h : m.wf = true) (o : Op) :
    m.lookup (m.byteOf o) = some o := by
  have hn : (Op.all.map m.byteOf).Nodup := by
    rw [← m.toList_eq]
    simpa [OpcodeMap.wf] using h
  exact find_image _ hn o.mem_all

/-- What is found by a byte has that opcode byte. -/
theorem OpcodeMap.byteOf_of_lookup {m : OpcodeMap} {b : Byte} {o : Op} (h : m.lookup b = some o) :
    m.byteOf o = b := by simpa using List.find?_some h

/-- Nothing is found exactly for an unassigned byte. -/
theorem OpcodeMap.lookup_eq_none {m : OpcodeMap} {b : Byte} : m.lookup b = none ↔ b ∉ m.toList := by
  rw [m.toList_eq]
  simp only [OpcodeMap.lookup, List.find?_eq_none, List.mem_map, not_exists, not_and, beq_iff_eq]

theorem Reg.ofByte_toByte (r : Reg) : Reg.ofByte r.toByte = .ok r := by cases r <;> rfl

/-- A byte below 8 is the byte of a register; any other is rejected. -/
theorem Reg.ofByte_cases (b : Byte) :
    (b.toNat < 8 ∧ ∃ r, Reg.ofByte b = .ok r ∧ r.toByte = b) ∨
    (¬ b.toNat < 8 ∧ Reg.ofByte b = .error b) := by
  by_cases h : b.toNat < 8
  · refine .inl ⟨h, ?_⟩
    have hb : b = BitVec.ofNat 8 b.toNat := by simp
    generalize b.toNat = n at h hb
    subst hb
    rcases n with _ | _ | _ | _ | _ | _ | _ | _ | n <;>
      first | exact ⟨_, rfl, rfl⟩ | omega
  · refine .inr ⟨h, ?_⟩
    unfold Reg.ofByte
    split <;> first | omega | rfl

theorem Instr.operandBytes_length (i : Instr) : i.operandBytes.length = i.op.shapes.length := by
  cases i <;> rfl

end Sys2Proof
end

