-- ==== Sys2Proof/Laws/Config.lean ====
section
/-! SUPPORT. The check of a configuration is the spec's constraints (00_scope.md R6), and `IPF`'s. -/

namespace Sys2Proof

open Sys2Proof.Machine

theorem Op.all_nodup : Op.all.Nodup := by decide

/-- The 29 opcode parameters are pairwise different exactly when different mnemonics have different
opcode bytes. -/
theorem OpcodeMap.wf_iff (m : OpcodeMap) :
    m.wf = true ↔ ∀ o p : Op, o ≠ p → m.byteOf o ≠ m.byteOf p := by
  constructor
  · intro h o p hop e
    have := m.lookup_byteOf h o
    rw [e, m.lookup_byteOf h p] at this
    exact hop (Option.some.inj this).symm
  · intro h
    have inj : Function.Injective m.byteOf := fun o p e => by
      by_contra hop
      exact h o p hop e
    rw [OpcodeMap.wf, m.toList_eq]
    simpa using Op.all_nodup.map inj

/-- `Cfg.wf` checks R6 and that `IPF` is positive (log 16), and nothing else. -/
theorem Cfg.wf_iff (c : Cfg) : c.wf = true ↔ MeetsR6 c ∧ 0 < c.ipf := by
  simp only [Cfg.wf, Cfg.regionsOrdered, Cfg.keyboardInIo, Cfg.ipfPositive, FlagBits.wf,
    Bool.and_eq_true, decide_eq_true_eq, OpcodeMap.wf_iff, List.nodup_cons, List.mem_cons,
    List.not_mem_nil, List.nodup_nil, or_false, not_or, not_false_eq_true, and_true]
  constructor
  · rintro ⟨⟨⟨⟨⟨⟨⟨h1, h2⟩, h3⟩, h4⟩, h5, h6⟩, h7⟩, ⟨a, b, d, e⟩, ⟨f, g, h⟩, ⟨i, j⟩, k⟩, h9⟩
    exact ⟨⟨h1, h2, h3, h4, h5, h6, h7, a, b, d, e, f, g, h, i, j, k⟩, h9⟩
  · rintro ⟨⟨h1, h2, h3, h4, h5, h6, h7, a, b, d, e, f, g, h, i, j, k⟩, h9⟩
    exact ⟨⟨⟨⟨⟨⟨⟨h1, h2⟩, h3⟩, h4⟩, h5, h6⟩, h7⟩, ⟨a, b, d, e⟩, ⟨f, g, h⟩, ⟨i, j⟩, k⟩, h9⟩

end Sys2Proof
end

