-- ==== Sys2Proof/Laws/State.lean ====
section
/-! SUPPORT. One lemma per field per update of State, so that no proof unfolds a record update. -/

namespace Sys2Proof.Machine

variable (s : State)

@[simp] theorem State.setReg_cfg (r : Reg) (v : Byte) : (s.setReg r v).cfg = s.cfg := rfl
@[simp] theorem State.setReg_regs (r : Reg) (v : Byte) : (s.setReg r v).regs = s.regs.set r v := rfl
@[simp] theorem State.setReg_pc (r : Reg) (v : Byte) : (s.setReg r v).pc = s.pc := rfl
@[simp] theorem State.setReg_ir (r : Reg) (v : Byte) : (s.setReg r v).ir = s.ir := rfl
@[simp] theorem State.setReg_sp (r : Reg) (v : Byte) : (s.setReg r v).sp = s.sp := rfl
@[simp] theorem State.setReg_flags (r : Reg) (v : Byte) : (s.setReg r v).flags = s.flags := rfl
@[simp] theorem State.setReg_run (r : Reg) (v : Byte) : (s.setReg r v).run = s.run := rfl
@[simp] theorem State.setReg_faultInfo (r : Reg) (v : Byte) : (s.setReg r v).faultInfo = s.faultInfo := rfl
@[simp] theorem State.setReg_mem (r : Reg) (v : Byte) : (s.setReg r v).mem = s.mem := rfl
@[simp] theorem State.setReg_kbdFifo (r : Reg) (v : Byte) : (s.setReg r v).kbdFifo = s.kbdFifo := rfl

@[simp] theorem State.setPc_cfg (t : Byte) : (s.setPc t).cfg = s.cfg := rfl
@[simp] theorem State.setPc_regs (t : Byte) : (s.setPc t).regs = s.regs := rfl
@[simp] theorem State.setPc_pc (t : Byte) : (s.setPc t).pc = t := rfl
@[simp] theorem State.setPc_ir (t : Byte) : (s.setPc t).ir = s.ir := rfl
@[simp] theorem State.setPc_sp (t : Byte) : (s.setPc t).sp = s.sp := rfl
@[simp] theorem State.setPc_flags (t : Byte) : (s.setPc t).flags = s.flags := rfl
@[simp] theorem State.setPc_run (t : Byte) : (s.setPc t).run = s.run := rfl
@[simp] theorem State.setPc_faultInfo (t : Byte) : (s.setPc t).faultInfo = s.faultInfo := rfl
@[simp] theorem State.setPc_mem (t : Byte) : (s.setPc t).mem = s.mem := rfl
@[simp] theorem State.setPc_kbdFifo (t : Byte) : (s.setPc t).kbdFifo = s.kbdFifo := rfl
@[simp] theorem State.setPc_reg (t : Byte) (q : Reg) : (s.setPc t).reg q = s.reg q := rfl

@[simp] theorem State.setSp_cfg (t : Byte) : (s.setSp t).cfg = s.cfg := rfl
@[simp] theorem State.setSp_regs (t : Byte) : (s.setSp t).regs = s.regs := rfl
@[simp] theorem State.setSp_pc (t : Byte) : (s.setSp t).pc = s.pc := rfl
@[simp] theorem State.setSp_ir (t : Byte) : (s.setSp t).ir = s.ir := rfl
@[simp] theorem State.setSp_sp (t : Byte) : (s.setSp t).sp = t := rfl
@[simp] theorem State.setSp_flags (t : Byte) : (s.setSp t).flags = s.flags := rfl
@[simp] theorem State.setSp_run (t : Byte) : (s.setSp t).run = s.run := rfl
@[simp] theorem State.setSp_faultInfo (t : Byte) : (s.setSp t).faultInfo = s.faultInfo := rfl
@[simp] theorem State.setSp_mem (t : Byte) : (s.setSp t).mem = s.mem := rfl
@[simp] theorem State.setSp_kbdFifo (t : Byte) : (s.setSp t).kbdFifo = s.kbdFifo := rfl
@[simp] theorem State.setSp_reg (t : Byte) (q : Reg) : (s.setSp t).reg q = s.reg q := rfl

@[simp] theorem State.setFlags_cfg (f : Byte) : (s.setFlags f).cfg = s.cfg := rfl
@[simp] theorem State.setFlags_regs (f : Byte) : (s.setFlags f).regs = s.regs := rfl
@[simp] theorem State.setFlags_pc (f : Byte) : (s.setFlags f).pc = s.pc := rfl
@[simp] theorem State.setFlags_ir (f : Byte) : (s.setFlags f).ir = s.ir := rfl
@[simp] theorem State.setFlags_sp (f : Byte) : (s.setFlags f).sp = s.sp := rfl
@[simp] theorem State.setFlags_flags (f : Byte) : (s.setFlags f).flags = f := rfl
@[simp] theorem State.setFlags_run (f : Byte) : (s.setFlags f).run = s.run := rfl
@[simp] theorem State.setFlags_faultInfo (f : Byte) : (s.setFlags f).faultInfo = s.faultInfo := rfl
@[simp] theorem State.setFlags_mem (f : Byte) : (s.setFlags f).mem = s.mem := rfl
@[simp] theorem State.setFlags_kbdFifo (f : Byte) : (s.setFlags f).kbdFifo = s.kbdFifo := rfl
@[simp] theorem State.setFlags_reg (f : Byte) (q : Reg) : (s.setFlags f).reg q = s.reg q := rfl

@[simp] theorem State.setRun_cfg (r : RunState) : (s.setRun r).cfg = s.cfg := rfl
@[simp] theorem State.setRun_regs (r : RunState) : (s.setRun r).regs = s.regs := rfl
@[simp] theorem State.setRun_pc (r : RunState) : (s.setRun r).pc = s.pc := rfl
@[simp] theorem State.setRun_ir (r : RunState) : (s.setRun r).ir = s.ir := rfl
@[simp] theorem State.setRun_sp (r : RunState) : (s.setRun r).sp = s.sp := rfl
@[simp] theorem State.setRun_flags (r : RunState) : (s.setRun r).flags = s.flags := rfl
@[simp] theorem State.setRun_run (r : RunState) : (s.setRun r).run = r := rfl
@[simp] theorem State.setRun_faultInfo (r : RunState) : (s.setRun r).faultInfo = s.faultInfo := rfl
@[simp] theorem State.setRun_mem (r : RunState) : (s.setRun r).mem = s.mem := rfl
@[simp] theorem State.setRun_kbdFifo (r : RunState) : (s.setRun r).kbdFifo = s.kbdFifo := rfl
@[simp] theorem State.setRun_reg (r : RunState) (q : Reg) : (s.setRun r).reg q = s.reg q := rfl

@[simp] theorem State.setMem_cfg (a v : Byte) : (s.setMem a v).cfg = s.cfg := rfl
@[simp] theorem State.setMem_regs (a v : Byte) : (s.setMem a v).regs = s.regs := rfl
@[simp] theorem State.setMem_pc (a v : Byte) : (s.setMem a v).pc = s.pc := rfl
@[simp] theorem State.setMem_ir (a v : Byte) : (s.setMem a v).ir = s.ir := rfl
@[simp] theorem State.setMem_sp (a v : Byte) : (s.setMem a v).sp = s.sp := rfl
@[simp] theorem State.setMem_flags (a v : Byte) : (s.setMem a v).flags = s.flags := rfl
@[simp] theorem State.setMem_run (a v : Byte) : (s.setMem a v).run = s.run := rfl
@[simp] theorem State.setMem_faultInfo (a v : Byte) : (s.setMem a v).faultInfo = s.faultInfo := rfl
@[simp] theorem State.setMem_mem (a v : Byte) : (s.setMem a v).mem = Memory.write s.mem a v := rfl
@[simp] theorem State.setMem_kbdFifo (a v : Byte) : (s.setMem a v).kbdFifo = s.kbdFifo := rfl
@[simp] theorem State.setMem_reg (a v : Byte) (q : Reg) : (s.setMem a v).reg q = s.reg q := rfl

@[simp] theorem State.setFifo_cfg (q : List Byte) : (s.setFifo q).cfg = s.cfg := rfl
@[simp] theorem State.setFifo_regs (q : List Byte) : (s.setFifo q).regs = s.regs := rfl
@[simp] theorem State.setFifo_pc (q : List Byte) : (s.setFifo q).pc = s.pc := rfl
@[simp] theorem State.setFifo_ir (q : List Byte) : (s.setFifo q).ir = s.ir := rfl
@[simp] theorem State.setFifo_sp (q : List Byte) : (s.setFifo q).sp = s.sp := rfl
@[simp] theorem State.setFifo_flags (q : List Byte) : (s.setFifo q).flags = s.flags := rfl
@[simp] theorem State.setFifo_run (q : List Byte) : (s.setFifo q).run = s.run := rfl
@[simp] theorem State.setFifo_faultInfo (q : List Byte) : (s.setFifo q).faultInfo = s.faultInfo := rfl
@[simp] theorem State.setFifo_mem (q : List Byte) : (s.setFifo q).mem = s.mem := rfl
@[simp] theorem State.setFifo_kbdFifo (q : List Byte) : (s.setFifo q).kbdFifo = q := rfl
@[simp] theorem State.setFifo_reg (q : List Byte) (r : Reg) : (s.setFifo q).reg r = s.reg r := rfl

@[simp] theorem State.raise_cfg (c : FaultCause) (b : Byte) : (s.raise c b).cfg = s.cfg := rfl
@[simp] theorem State.raise_regs (c : FaultCause) (b : Byte) : (s.raise c b).regs = s.regs := rfl
@[simp] theorem State.raise_pc (c : FaultCause) (b : Byte) : (s.raise c b).pc = s.pc := rfl
@[simp] theorem State.raise_ir (c : FaultCause) (b : Byte) : (s.raise c b).ir = s.ir := rfl
@[simp] theorem State.raise_sp (c : FaultCause) (b : Byte) : (s.raise c b).sp = s.sp := rfl
@[simp] theorem State.raise_flags (c : FaultCause) (b : Byte) : (s.raise c b).flags = s.flags := rfl
@[simp] theorem State.raise_run (c : FaultCause) (b : Byte) : (s.raise c b).run = .faulted := rfl
@[simp] theorem State.raise_faultInfo (c : FaultCause) (b : Byte) : (s.raise c b).faultInfo = some { cause := c, addr := s.pc, byte := b } := rfl
@[simp] theorem State.raise_mem (c : FaultCause) (b : Byte) : (s.raise c b).mem = s.mem := rfl
@[simp] theorem State.raise_kbdFifo (c : FaultCause) (b : Byte) : (s.raise c b).kbdFifo = s.kbdFifo := rfl
@[simp] theorem State.raise_reg (c : FaultCause) (b : Byte) (q : Reg) : (s.raise c b).reg q = s.reg q := rfl

@[simp] theorem State.kbdWrite_cfg (v : Byte) : (s.kbdWrite v).cfg = s.cfg := rfl
@[simp] theorem State.kbdWrite_regs (v : Byte) : (s.kbdWrite v).regs = s.regs := rfl
@[simp] theorem State.kbdWrite_pc (v : Byte) : (s.kbdWrite v).pc = s.pc := rfl
@[simp] theorem State.kbdWrite_ir (v : Byte) : (s.kbdWrite v).ir = s.ir := rfl
@[simp] theorem State.kbdWrite_sp (v : Byte) : (s.kbdWrite v).sp = s.sp := rfl
@[simp] theorem State.kbdWrite_flags (v : Byte) : (s.kbdWrite v).flags = s.flags := rfl
@[simp] theorem State.kbdWrite_run (v : Byte) : (s.kbdWrite v).run = s.run := rfl
@[simp] theorem State.kbdWrite_faultInfo (v : Byte) : (s.kbdWrite v).faultInfo = s.faultInfo := rfl
@[simp] theorem State.kbdWrite_mem (v : Byte) : (s.kbdWrite v).mem = s.mem := rfl
@[simp] theorem State.kbdWrite_kbdFifo (v : Byte) : (s.kbdWrite v).kbdFifo = s.kbdFifo ++ [v] := rfl
@[simp] theorem State.kbdWrite_reg (v : Byte) (q : Reg) : (s.kbdWrite v).reg q = s.reg q := rfl

@[simp] theorem State.advance_cfg (n : Nat) : (s.advance n).cfg = s.cfg := rfl
@[simp] theorem State.advance_regs (n : Nat) : (s.advance n).regs = s.regs := rfl
@[simp] theorem State.advance_pc (n : Nat) : (s.advance n).pc = s.pc + BitVec.ofNat 8 n := rfl
@[simp] theorem State.advance_ir (n : Nat) : (s.advance n).ir = s.ir := rfl
@[simp] theorem State.advance_sp (n : Nat) : (s.advance n).sp = s.sp := rfl
@[simp] theorem State.advance_flags (n : Nat) : (s.advance n).flags = s.flags := rfl
@[simp] theorem State.advance_run (n : Nat) : (s.advance n).run = s.run := rfl
@[simp] theorem State.advance_faultInfo (n : Nat) : (s.advance n).faultInfo = s.faultInfo := rfl
@[simp] theorem State.advance_mem (n : Nat) : (s.advance n).mem = s.mem := rfl
@[simp] theorem State.advance_kbdFifo (n : Nat) : (s.advance n).kbdFifo = s.kbdFifo := rfl
@[simp] theorem State.advance_reg (n : Nat) (q : Reg) : (s.advance n).reg q = s.reg q := rfl

@[simp] theorem State.setC_cfg (b : Bool) : (s.setC b).cfg = s.cfg := rfl
@[simp] theorem State.setC_regs (b : Bool) : (s.setC b).regs = s.regs := rfl
@[simp] theorem State.setC_pc (b : Bool) : (s.setC b).pc = s.pc := rfl
@[simp] theorem State.setC_ir (b : Bool) : (s.setC b).ir = s.ir := rfl
@[simp] theorem State.setC_sp (b : Bool) : (s.setC b).sp = s.sp := rfl
@[simp] theorem State.setC_flags (b : Bool) : (s.setC b).flags = setFlagAt s.flags s.cfg.flagBits.c b := rfl
@[simp] theorem State.setC_run (b : Bool) : (s.setC b).run = s.run := rfl
@[simp] theorem State.setC_faultInfo (b : Bool) : (s.setC b).faultInfo = s.faultInfo := rfl
@[simp] theorem State.setC_mem (b : Bool) : (s.setC b).mem = s.mem := rfl
@[simp] theorem State.setC_kbdFifo (b : Bool) : (s.setC b).kbdFifo = s.kbdFifo := rfl
@[simp] theorem State.setC_reg (b : Bool) (q : Reg) : (s.setC b).reg q = s.reg q := rfl

@[simp] theorem State.setS_cfg (b : Bool) : (s.setS b).cfg = s.cfg := rfl
@[simp] theorem State.setS_regs (b : Bool) : (s.setS b).regs = s.regs := rfl
@[simp] theorem State.setS_pc (b : Bool) : (s.setS b).pc = s.pc := rfl
@[simp] theorem State.setS_ir (b : Bool) : (s.setS b).ir = s.ir := rfl
@[simp] theorem State.setS_sp (b : Bool) : (s.setS b).sp = s.sp := rfl
@[simp] theorem State.setS_flags (b : Bool) : (s.setS b).flags = setFlagAt s.flags s.cfg.flagBits.s b := rfl
@[simp] theorem State.setS_run (b : Bool) : (s.setS b).run = s.run := rfl
@[simp] theorem State.setS_faultInfo (b : Bool) : (s.setS b).faultInfo = s.faultInfo := rfl
@[simp] theorem State.setS_mem (b : Bool) : (s.setS b).mem = s.mem := rfl
@[simp] theorem State.setS_kbdFifo (b : Bool) : (s.setS b).kbdFifo = s.kbdFifo := rfl
@[simp] theorem State.setS_reg (b : Bool) (q : Reg) : (s.setS b).reg q = s.reg q := rfl

@[simp] theorem State.setV_cfg (b : Bool) : (s.setV b).cfg = s.cfg := rfl
@[simp] theorem State.setV_regs (b : Bool) : (s.setV b).regs = s.regs := rfl
@[simp] theorem State.setV_pc (b : Bool) : (s.setV b).pc = s.pc := rfl
@[simp] theorem State.setV_ir (b : Bool) : (s.setV b).ir = s.ir := rfl
@[simp] theorem State.setV_sp (b : Bool) : (s.setV b).sp = s.sp := rfl
@[simp] theorem State.setV_flags (b : Bool) : (s.setV b).flags = setFlagAt s.flags s.cfg.flagBits.v b := rfl
@[simp] theorem State.setV_run (b : Bool) : (s.setV b).run = s.run := rfl
@[simp] theorem State.setV_faultInfo (b : Bool) : (s.setV b).faultInfo = s.faultInfo := rfl
@[simp] theorem State.setV_mem (b : Bool) : (s.setV b).mem = s.mem := rfl
@[simp] theorem State.setV_kbdFifo (b : Bool) : (s.setV b).kbdFifo = s.kbdFifo := rfl
@[simp] theorem State.setV_reg (b : Bool) (q : Reg) : (s.setV b).reg q = s.reg q := rfl

theorem Regs.get_set_same (g : Regs) (r : Reg) (v : Byte) : (g.set r v).get r = v := by
  cases r <;> rfl

theorem Regs.get_set_ne (g : Regs) {r q : Reg} (v : Byte) (h : q ≠ r) :
    (g.set r v).get q = g.get q := by
  cases r <;> cases q <;> first | rfl | exact absurd rfl h

@[simp] theorem State.reg_setReg_same (r : Reg) (v : Byte) : (s.setReg r v).reg r = v :=
  Regs.get_set_same _ _ _

theorem State.reg_setReg_ne {r q : Reg} (v : Byte) (h : q ≠ r) : (s.setReg r v).reg q = s.reg q :=
  Regs.get_set_ne _ _ h

end Sys2Proof.Machine
end

