-- ==== Sys2Proof/Laws/Flags.lean ====
section
/-! SUPPORT. Writing one flag writes one bit of FLAGS. -/

namespace Sys2Proof.Machine

theorem flagAt_setFlagAt (f : Byte) (p q : Fin 8) (b : Bool) :
    flagAt (setFlagAt f p b) q = if q = p then b else flagAt f q := by
  have hq := q.isLt
  have hp := p.isLt
  by_cases h : q = p
  · subst h
    cases b <;> simp [flagAt, setFlagAt]
  · have hv : q.val ≠ p.val := fun e => h (Fin.ext e)
    rcases Nat.lt_or_gt_of_ne hv with hlt | hgt
    · cases b <;> simp [flagAt, setFlagAt, h, hlt, hq]
    · have hne : ¬ (q.val - p.val = 0) := by omega
      cases b <;> simp [flagAt, setFlagAt, h, hq, hne]

@[simp] theorem flagAt_setFlagAt_same (f : Byte) (p : Fin 8) (b : Bool) :
    flagAt (setFlagAt f p b) p = b := by simp [flagAt_setFlagAt]

theorem flagAt_setFlagAt_ne (f : Byte) {p q : Fin 8} (b : Bool) (h : q ≠ p) :
    flagAt (setFlagAt f p b) q = flagAt f q := by simp [flagAt_setFlagAt, h]

/-- FLAGS is what its eight bits are. -/
theorem flags_ext {f g : Byte} (h : ∀ p : Fin 8, flagAt f p = flagAt g p) : f = g := by
  refine BitVec.eq_of_getLsbD_eq fun i hi => ?_
  exact h ⟨i, hi⟩

end Sys2Proof.Machine
end

