-- ==== Sys2Proof/Laws/Memory.lean ====
section
/-! SUPPORT. Memory: read after write, the canonical form, and that it makes equal memories equal
data. -/

namespace Sys2Proof.Machine

/-- A write leaves every other address alone. -/
theorem Memory.readAt_writeAt_ne (m : Memory) {a b : Nat} (v : Byte) (h : b ≠ a) :
    Memory.readAt (Memory.writeAt m a v) b = Memory.readAt m b := by
  induction m with
  | nil => by_cases hv : v = unlistedByte <;> simp [Memory.writeAt, Memory.readAt, hv, h]
  | cons c rest ih =>
    obtain ⟨k, w⟩ := c
    rcases Nat.lt_trichotomy a k with hlt | heq | hgt
    · by_cases hv : v = unlistedByte <;> simp [Memory.writeAt, Memory.readAt, hlt, hv, h]
    · subst heq
      by_cases hv : v = unlistedByte <;> simp [Memory.writeAt, Memory.readAt, hv, h]
    · have h1 : ¬ a < k := by omega
      have h2 : a ≠ k := by omega
      simp [Memory.writeAt, Memory.readAt, h1, h2, ih]

/-- Below its first possible address a canonical memory lists nothing. -/
theorem Memory.readAt_below {m : Memory} {lo a : Nat} (h : Memory.wfFrom lo m = true) (ha : a < lo) :
    Memory.readAt m a = unlistedByte := by
  induction m generalizing lo with
  | nil => rfl
  | cons c rest ih =>
    obtain ⟨k, w⟩ := c
    simp only [Memory.wfFrom, Bool.and_eq_true, decide_eq_true_eq] at h
    have hk : a ≠ k := by omega
    simp only [Memory.readAt, if_neg hk]
    exact ih h.2 (by omega)

/-- A canonical memory reads back what was written. -/
theorem Memory.readAt_writeAt_same {m : Memory} {lo : Nat} (h : Memory.wfFrom lo m = true) (a : Nat)
    (v : Byte) : Memory.readAt (Memory.writeAt m a v) a = v := by
  induction m generalizing lo with
  | nil =>
    by_cases hv : v = unlistedByte
    · simp [Memory.writeAt, Memory.readAt, hv]
    · simp [Memory.writeAt, Memory.readAt, hv]
  | cons c rest ih =>
    obtain ⟨k, w⟩ := c
    simp only [Memory.wfFrom, Bool.and_eq_true, decide_eq_true_eq] at h
    rcases Nat.lt_trichotomy a k with hlt | heq | hgt
    · by_cases hv : v = unlistedByte
      · have hk : a ≠ k := by omega
        rw [Memory.writeAt, if_pos hlt, if_pos hv, Memory.readAt, if_neg hk, hv]
        exact Memory.readAt_below h.2 (by omega)
      · simp [Memory.writeAt, Memory.readAt, hlt, hv]
    · subst heq
      by_cases hv : v = unlistedByte
      · simp only [Memory.writeAt, lt_irrefl, if_false, if_pos hv, if_true]
        rw [hv]
        exact Memory.readAt_below h.2 (by omega)
      · simp [Memory.writeAt, Memory.readAt, hv]
    · have h1 : ¬ a < k := by omega
      have h2 : a ≠ k := by omega
      simpa [Memory.writeAt, Memory.readAt, h1, h2] using ih h.2

theorem Memory.wfFrom_mono {m : Memory} {lo lo' : Nat} (hle : lo' ≤ lo)
    (h : Memory.wfFrom lo m = true) : Memory.wfFrom lo' m = true := by
  cases m with
  | nil => rfl
  | cons c rest =>
    obtain ⟨k, w⟩ := c
    simp only [Memory.wfFrom, Bool.and_eq_true, decide_eq_true_eq] at h ⊢
    exact ⟨⟨⟨by omega, h.1.1.2⟩, h.1.2⟩, h.2⟩

/-- A write keeps the canonical form. -/
theorem Memory.wfFrom_writeAt {m : Memory} {lo a : Nat} (v : Byte) (hlo : lo ≤ a) (ha : a < memSize)
    (h : Memory.wfFrom lo m = true) : Memory.wfFrom lo (Memory.writeAt m a v) = true := by
  induction m generalizing lo with
  | nil =>
    by_cases hv : v = unlistedByte <;>
      simp [Memory.writeAt, Memory.wfFrom, hv, hlo, ha]
  | cons c rest ih =>
    obtain ⟨k, w⟩ := c
    have h0 := h
    simp only [Memory.wfFrom, Bool.and_eq_true, decide_eq_true_eq] at h
    rcases Nat.lt_trichotomy a k with hlt | heq | hgt
    · by_cases hv : v = unlistedByte
      · simpa only [Memory.writeAt, if_pos hlt, if_pos hv] using h0
      · simp only [Memory.writeAt, if_pos hlt, if_neg hv, Memory.wfFrom, Bool.and_eq_true,
          decide_eq_true_eq]
        exact ⟨⟨⟨hlo, ha⟩, hv⟩, ⟨⟨by omega, h.1.1.2⟩, h.1.2⟩, h.2⟩
    · subst heq
      by_cases hv : v = unlistedByte
      · simp only [Memory.writeAt, lt_irrefl, if_false, if_pos hv, if_true]
        exact Memory.wfFrom_mono (by omega) h.2
      · simp only [Memory.writeAt, lt_irrefl, if_false, if_neg hv, if_true, Memory.wfFrom,
          Bool.and_eq_true, decide_eq_true_eq]
        exact ⟨⟨⟨hlo, ha⟩, hv⟩, h.2⟩
    · have h1 : ¬ a < k := by omega
      have h2 : a ≠ k := by omega
      simp only [Memory.writeAt, if_neg h1, if_neg h2, Memory.wfFrom, Bool.and_eq_true,
        decide_eq_true_eq]
      exact ⟨h.1, ih (by omega) h.2⟩

/-- A write at a byte address keeps the canonical form. -/
theorem Memory.wf_write {m : Memory} (a v : Byte) (h : Memory.wf m = true) :
    Memory.wf (Memory.write m a v) = true :=
  Memory.wfFrom_writeAt v (Nat.zero_le _) a.isLt h

/-- Storing a list of bytes that ends inside memory keeps the canonical form. -/
theorem Memory.wf_writeList {m : Memory} {a : Nat} (vs : List Byte) (ha : a + vs.length ≤ memSize)
    (h : Memory.wf m = true) : Memory.wf (Memory.writeList m a vs) = true := by
  induction vs generalizing m a with
  | nil => exact h
  | cons v vs ih =>
    simp only [List.length_cons] at ha
    exact ih (by omega) (Memory.wfFrom_writeAt v (Nat.zero_le _) (by omega) h)

/-- What a stored list of bytes leaves at each address. -/
theorem Memory.readAt_writeList {m : Memory} {a : Nat} (vs : List Byte) (b : Nat)
    (ha : a + vs.length ≤ memSize) (h : Memory.wf m = true) :
    Memory.readAt (Memory.writeList m a vs) b =
      if a ≤ b ∧ b < a + vs.length then vs.getD (b - a) 0 else Memory.readAt m b := by
  induction vs generalizing m a with
  | nil => simp [Memory.writeList]
  | cons v vs ih =>
    simp only [List.length_cons] at ha ⊢
    rw [Memory.writeList,
      ih (by omega) (Memory.wfFrom_writeAt v (Nat.zero_le _) (by omega) h)]
    rcases Nat.lt_trichotomy b a with hlt | heq | hgt
    · rw [if_neg (by omega), if_neg (by omega), Memory.readAt_writeAt_ne _ _ (by omega)]
    · subst heq
      rw [if_neg (by omega), if_pos (by omega), Memory.readAt_writeAt_same h]
      simp
    · by_cases hb : b < a + (vs.length + 1)
      · rw [if_pos (by omega), if_pos (by omega)]
        obtain ⟨k, rfl⟩ : ∃ k, b = a + 1 + k := ⟨b - (a + 1), by omega⟩
        have e1 : a + 1 + k - (a + 1) = k := by omega
        have e2 : a + 1 + k - a = k + 1 := by omega
        rw [e1, e2, List.getD_cons_succ]
      · rw [if_neg (by omega), if_neg (by omega), Memory.readAt_writeAt_ne _ _ (by omega)]

/-- The memory of a function is canonical. -/
theorem Memory.wf_ofFn (f : Byte → Byte) : Memory.wf (Memory.ofFn f) = true :=
  Memory.wf_writeList _ (by simp) rfl

/-- The memory of a function reads as the function. -/
theorem Memory.read_ofFn (f : Byte → Byte) (a : Byte) : Memory.read (Memory.ofFn f) a = f a := by
  have ha : a.toNat < memSize := a.isLt
  rw [Memory.read, Memory.ofFn, Memory.readAt_writeList _ _ (by simp) rfl]
  simp [ha]

/-- Canonical memories that read alike are equal. -/
theorem Memory.eq_of_readAt {m n : Memory} {lo : Nat} (hm : Memory.wfFrom lo m = true)
    (hn : Memory.wfFrom lo n = true) (h : ∀ a, Memory.readAt m a = Memory.readAt n a) : m = n := by
  induction m generalizing n lo with
  | nil =>
    cases n with
    | nil => rfl
    | cons c rest =>
      obtain ⟨k, w⟩ := c
      simp only [Memory.wfFrom, Bool.and_eq_true, decide_eq_true_eq] at hn
      have := h k
      simp only [Memory.readAt, if_true] at this
      exact absurd this.symm hn.1.2
  | cons c rest ih =>
    obtain ⟨k, w⟩ := c
    cases n with
    | nil =>
      simp only [Memory.wfFrom, Bool.and_eq_true, decide_eq_true_eq] at hm
      have := h k
      simp only [Memory.readAt, if_true] at this
      exact absurd this hm.1.2
    | cons c' rest' =>
      obtain ⟨k', w'⟩ := c'
      simp only [Memory.wfFrom, Bool.and_eq_true, decide_eq_true_eq] at hm hn
      have hk : k = k' := by
        rcases Nat.lt_trichotomy k k' with hlt | heq | hgt
        · have e := h k
          simp only [Memory.readAt, if_true, if_neg (Nat.ne_of_lt hlt)] at e
          rw [Memory.readAt_below hn.2 (by omega)] at e
          exact absurd e hm.1.2
        · exact heq
        · have e := h k'
          simp only [Memory.readAt, if_true, if_neg (Nat.ne_of_lt hgt)] at e
          rw [Memory.readAt_below hm.2 (by omega)] at e
          exact absurd e.symm hn.1.2
      subst hk
      have hw : w = w' := by simpa [Memory.readAt] using h k
      subst hw
      refine congrArg _ (ih hm.2 hn.2 fun a => ?_)
      by_cases ha : a = k
      · rw [Memory.readAt_below hm.2 (by omega), Memory.readAt_below hn.2 (by omega)]
      · simpa [Memory.readAt, ha] using h a

/-- A canonical memory lists nothing outside its 256 addresses. -/
theorem Memory.readAt_above {m : Memory} {lo a : Nat} (h : Memory.wfFrom lo m = true)
    (ha : memSize ≤ a) : Memory.readAt m a = unlistedByte := by
  induction m generalizing lo with
  | nil => rfl
  | cons c rest ih =>
    obtain ⟨k, w⟩ := c
    simp only [Memory.wfFrom, Bool.and_eq_true, decide_eq_true_eq] at h
    have hk : a ≠ k := by omega
    simpa [Memory.readAt, hk] using ih h.2

/-- Canonical memories with the same byte at every address are equal. -/
theorem Memory.ext {m n : Memory} (hm : Memory.wf m = true) (hn : Memory.wf n = true)
    (h : ∀ a : Byte, Memory.read m a = Memory.read n a) : m = n := by
  refine Memory.eq_of_readAt hm hn fun a => ?_
  by_cases ha : a < memSize
  · have e : (BitVec.ofNat 8 a).toNat = a := by
      simpa using (Nat.mod_eq_of_lt ha : a % 256 = a)
    simpa [Memory.read, e] using h (BitVec.ofNat 8 a)
  · rw [Memory.readAt_above hm (by omega), Memory.readAt_above hn (by omega)]

theorem Memory.read_write_same {m : Memory} (a v : Byte) (h : Memory.wf m = true) :
    Memory.read (Memory.write m a v) a = v := Memory.readAt_writeAt_same h _ _

theorem Memory.read_write_ne (m : Memory) {a b : Byte} (v : Byte) (h : b ≠ a) :
    Memory.read (Memory.write m a v) b = Memory.read m b :=
  Memory.readAt_writeAt_ne m v fun e => h (BitVec.eq_of_toNat_eq e)

end Sys2Proof.Machine
end

