-- ==== Sys2Proof/Laws/Ops.lean ====
section
/-! SUPPORT. What a transaction through the dispatcher can do, said once. -/

namespace Sys2Proof.Machine

theorem deviceAt_kbd (c : Cfg) : deviceAt c c.kbdAddr = some .keyboard := by simp [deviceAt]

theorem deviceAt_none {c : Cfg} {a : Byte} (h : a ≠ c.kbdAddr) : deviceAt c a = none := by
  simp [deviceAt, h]

/-- A read changes the keyboard queue only: it drops the queue's head or nothing. -/
theorem State.memRead_cases (s : State) (a : Byte) :
    (a ≠ s.cfg.kbdAddr ∧ s.memRead a = (Memory.read s.mem a, s)) ∨
    (a = s.cfg.kbdAddr ∧ s.kbdFifo = [] ∧ s.memRead a = (0, s)) ∨
    (a = s.cfg.kbdAddr ∧ ∃ c rest, s.kbdFifo = c :: rest ∧ s.memRead a = (c, s.setFifo rest)) := by
  by_cases h : a = s.cfg.kbdAddr
  · refine .inr ?_
    cases hq : s.kbdFifo with
    | nil => exact .inl ⟨h, rfl, by simp [State.memRead, h, deviceAt_kbd, State.kbdRead, hq]⟩
    | cons c rest =>
      exact .inr ⟨h, c, rest, rfl, by simp [State.memRead, h, deviceAt_kbd, State.kbdRead, hq]⟩
  · exact .inl ⟨h, by simp [State.memRead, deviceAt_none h]⟩

/-- A read leaves a state that differs in the keyboard queue only, and the new queue is a suffix of
the old. -/
theorem State.memRead_state (s : State) (a : Byte) :
    ∃ q, (s.memRead a).2 = s.setFifo q ∧ q <:+ s.kbdFifo := by
  rcases s.memRead_cases a with ⟨_, e⟩ | ⟨_, _, e⟩ | ⟨_, c, rest, hq, e⟩
  · exact ⟨s.kbdFifo, by rw [e]; rfl, List.suffix_refl _⟩
  · exact ⟨s.kbdFifo, by rw [e]; rfl, List.suffix_refl _⟩
  · exact ⟨rest, by rw [e], hq ▸ List.suffix_cons c rest⟩

/-- Reading a run of bytes leaves a state that differs in the keyboard queue only. -/
theorem State.readBytes_state (n : Nat) (a : Byte) (s : State) :
    ∃ q, (s.readBytes n a).2 = s.setFifo q ∧ q <:+ s.kbdFifo := by
  induction n generalizing a s with
  | zero => exact ⟨s.kbdFifo, rfl, List.suffix_refl _⟩
  | succ n ih =>
    obtain ⟨q1, e1, h1⟩ := s.memRead_state a
    obtain ⟨q2, e2, h2⟩ := ih (a + 1) (s.memRead a).2
    refine ⟨q2, ?_, ?_⟩
    · show ((s.memRead a).2.readBytes n (a + 1)).2 = _
      rw [e2, e1]
      rfl
    · rw [e1] at h2
      exact h2.trans h1

/-- A read at `KBD_ADDR` leaves the queue without its oldest byte. -/
theorem State.memRead_kbdFifo (s : State) : (s.memRead s.cfg.kbdAddr).2.kbdFifo = s.kbdFifo.tail := by
  rcases s.memRead_cases s.cfg.kbdAddr with ⟨h, _⟩ | ⟨_, hq, e⟩ | ⟨_, c, rest, hq, e⟩
  · exact absurd rfl h
  · simp [e, hq]
  · rw [e, hq]
    rfl

/-- A read anywhere else changes nothing. -/
theorem State.memRead_plain (s : State) {a : Byte} (h : a ≠ s.cfg.kbdAddr) :
    s.memRead a = (Memory.read s.mem a, s) := by simp [State.memRead, deviceAt_none h]

/-- The address `k` past `a + 1` is the address `k + 1` past `a`. -/
theorem add_one_add_ofNat (a : Byte) (k : Nat) :
    a + 1 + BitVec.ofNat 8 k = a + BitVec.ofNat 8 (k + 1) := by
  rw [BitVec.ofNat_add, BitVec.add_assoc, BitVec.add_comm 1]
  rfl

/-- Reading a run of bytes that does not meet `KBD_ADDR` changes nothing. -/
theorem State.readBytes_plain {n : Nat} {a : Byte} {s : State}
    (h : ∀ k < n, a + BitVec.ofNat 8 k ≠ s.cfg.kbdAddr) : (s.readBytes n a).2 = s := by
  induction n generalizing a with
  | zero => rfl
  | succ n ih =>
    have h0 : a ≠ s.cfg.kbdAddr := by simpa using h 0 (by omega)
    show ((s.memRead a).2.readBytes n (a + 1)).2 = s
    rw [s.memRead_plain h0]
    refine ih fun k hk => ?_
    rw [add_one_add_ofNat]
    exact h (k + 1) (by omega)

/-- Reading a run of at most 256 bytes that meets `KBD_ADDR` drops exactly the queue's oldest byte:
consecutive addresses meet it once. -/
theorem State.readBytes_kbdFifo {n : Nat} {a : Byte} {s : State} (hn : n ≤ 256)
    (h : ∃ k < n, a + BitVec.ofNat 8 k = s.cfg.kbdAddr) :
    (s.readBytes n a).2.kbdFifo = s.kbdFifo.tail := by
  induction n generalizing a with
  | zero => obtain ⟨k, hk, _⟩ := h; omega
  | succ n ih =>
    show ((s.memRead a).2.readBytes n (a + 1)).2.kbdFifo = s.kbdFifo.tail
    by_cases h0 : a = s.cfg.kbdAddr
    · obtain ⟨q, eq, _⟩ := s.memRead_state a
      have hq : q = s.kbdFifo.tail := by
        have := s.memRead_kbdFifo
        rw [← h0, eq] at this
        exact this
      rw [eq, State.readBytes_plain, hq]
      · rfl
      · intro k hk hc
        rw [add_one_add_ofNat] at hc
        have hz : a + BitVec.ofNat 8 (k + 1) = a := hc.trans h0.symm
        bv_omega
    · rw [s.memRead_plain h0]
      obtain ⟨k, hk, hc⟩ := h
      rcases k with _ | k
      · exact absurd (by simpa using hc) h0
      · exact ih (by omega) ⟨k, by omega, (add_one_add_ofNat a k).trans hc⟩

theorem State.memWrite_kbd (s : State) (v : Byte) :
    s.memWrite s.cfg.kbdAddr v = s.kbdWrite v := by simp [State.memWrite, deviceAt_kbd]

theorem State.memWrite_mem (s : State) {a : Byte} (v : Byte) (h : a ≠ s.cfg.kbdAddr) :
    s.memWrite a v = s.setMem a v := by simp [State.memWrite, deviceAt_none h]

/-- A write changes MEM or the keyboard queue and nothing else. -/
theorem State.memWrite_cases (s : State) (a v : Byte) :
    (a = s.cfg.kbdAddr ∧ s.memWrite a v = s.kbdWrite v) ∨
    (a ≠ s.cfg.kbdAddr ∧ s.memWrite a v = s.setMem a v) := by
  by_cases h : a = s.cfg.kbdAddr
  · exact .inl ⟨h, by rw [h, s.memWrite_kbd]⟩
  · exact .inr ⟨h, s.memWrite_mem v h⟩

section
variable (s : State) (a v : Byte)

@[simp] theorem State.memWrite_cfg : (s.memWrite a v).cfg = s.cfg := by
  rcases s.memWrite_cases a v with ⟨_, e⟩ | ⟨_, e⟩ <;> rw [e] <;> rfl
@[simp] theorem State.memWrite_regs : (s.memWrite a v).regs = s.regs := by
  rcases s.memWrite_cases a v with ⟨_, e⟩ | ⟨_, e⟩ <;> rw [e] <;> rfl
@[simp] theorem State.memWrite_reg (q : Reg) : (s.memWrite a v).reg q = s.reg q := by
  simp [State.reg]
@[simp] theorem State.memWrite_pc : (s.memWrite a v).pc = s.pc := by
  rcases s.memWrite_cases a v with ⟨_, e⟩ | ⟨_, e⟩ <;> rw [e] <;> rfl
@[simp] theorem State.memWrite_ir : (s.memWrite a v).ir = s.ir := by
  rcases s.memWrite_cases a v with ⟨_, e⟩ | ⟨_, e⟩ <;> rw [e] <;> rfl
@[simp] theorem State.memWrite_sp : (s.memWrite a v).sp = s.sp := by
  rcases s.memWrite_cases a v with ⟨_, e⟩ | ⟨_, e⟩ <;> rw [e] <;> rfl
@[simp] theorem State.memWrite_flags : (s.memWrite a v).flags = s.flags := by
  rcases s.memWrite_cases a v with ⟨_, e⟩ | ⟨_, e⟩ <;> rw [e] <;> rfl
@[simp] theorem State.memWrite_run : (s.memWrite a v).run = s.run := by
  rcases s.memWrite_cases a v with ⟨_, e⟩ | ⟨_, e⟩ <;> rw [e] <;> rfl
@[simp] theorem State.memWrite_faultInfo : (s.memWrite a v).faultInfo = s.faultInfo := by
  rcases s.memWrite_cases a v with ⟨_, e⟩ | ⟨_, e⟩ <;> rw [e] <;> rfl
@[simp] theorem State.memRead_cfg : (s.memRead a).2.cfg = s.cfg := by
  obtain ⟨q, e, _⟩ := s.memRead_state a
  rw [e]; rfl
@[simp] theorem State.memRead_regs : (s.memRead a).2.regs = s.regs := by
  obtain ⟨q, e, _⟩ := s.memRead_state a
  rw [e]; rfl
@[simp] theorem State.memRead_reg (r : Reg) : (s.memRead a).2.reg r = s.reg r := by
  simp [State.reg]
@[simp] theorem State.memRead_pc : (s.memRead a).2.pc = s.pc := by
  obtain ⟨q, e, _⟩ := s.memRead_state a
  rw [e]; rfl
@[simp] theorem State.memRead_ir : (s.memRead a).2.ir = s.ir := by
  obtain ⟨q, e, _⟩ := s.memRead_state a
  rw [e]; rfl
@[simp] theorem State.memRead_sp : (s.memRead a).2.sp = s.sp := by
  obtain ⟨q, e, _⟩ := s.memRead_state a
  rw [e]; rfl
@[simp] theorem State.memRead_flags : (s.memRead a).2.flags = s.flags := by
  obtain ⟨q, e, _⟩ := s.memRead_state a
  rw [e]; rfl
@[simp] theorem State.memRead_run : (s.memRead a).2.run = s.run := by
  obtain ⟨q, e, _⟩ := s.memRead_state a
  rw [e]; rfl
@[simp] theorem State.memRead_faultInfo : (s.memRead a).2.faultInfo = s.faultInfo := by
  obtain ⟨q, e, _⟩ := s.memRead_state a
  rw [e]; rfl
@[simp] theorem State.memRead_mem : (s.memRead a).2.mem = s.mem := by
  obtain ⟨q, e, _⟩ := s.memRead_state a
  rw [e]; rfl

end

end Sys2Proof.Machine
end

