-- ==== Sys2Proof/Laws/Exec.lean ====
section
/-! SUPPORT. The next state of every instruction, one equation each, so that no proof unfolds `exec`
or a meaning; and what the shared effects keep. -/

namespace Sys2Proof.Machine

section
variable (s : State) (d r s1 s2 : Reg) (addr imm off : Byte)

theorem exec_add : exec (.add d s1 s2) s =
    .next (s.arith d (((s.reg s1).toNat : Int) + (s.reg s2).toNat)
      (overflowOf ((s.reg s1).toInt + (s.reg s2).toInt))) := rfl

theorem exec_sub : exec (.sub d s1 s2) s =
    .next (s.arith d (((s.reg s1).toNat : Int) - (s.reg s2).toNat)
      (overflowOf ((s.reg s1).toInt - (s.reg s2).toInt))) := rfl

theorem exec_mul : exec (.mul d s1 s2) s =
    .next (s.arith d (((s.reg s1).toNat : Int) * (s.reg s2).toNat)
      (mulOverflow s.cfg (s.reg s1) (s.reg s2))) := rfl

theorem exec_and : exec (.and d s1 s2) s =
    .next (s.result d (s.reg s1 &&& s.reg s2) 4) := rfl

theorem exec_or : exec (.or d s1 s2) s =
    .next (s.result d (s.reg s1 ||| s.reg s2) 4) := rfl

theorem exec_xor : exec (.xor d s1 s2) s =
    .next (s.result d (s.reg s1 ^^^ s.reg s2) 4) := rfl

theorem exec_shl : exec (.shl d s1 s2) s =
    .next (s.result d (shiftLeft (s.reg s1) (s.reg s2)) 4) := rfl

theorem exec_shr : exec (.shr d s1 s2) s =
    .next (s.result d (shiftRight (s.reg s1) (s.reg s2)) 4) := rfl

theorem exec_div_zero (h : s.reg s2 = 0) : exec (.div d s1 s2) s =
    .next (s.raise .divideByZero s2.toByte) := by
  simp only [exec, execDiv, if_pos h]

theorem exec_div (h : s.reg s2 ≠ 0) : exec (.div d s1 s2) s =
    .next ((((s.setReg d (BitVec.ofNat 8 ((s.reg s1).toNat / (s.reg s2).toNat))).setC false).setV
      false).advance 4) := by
  simp only [exec, execDiv, if_neg h]

theorem exec_not : exec (.not d r) s =
    .next (s.result d (~~~(s.reg r)) 3) := rfl

theorem exec_jal : exec (.jal d addr) s =
    .next (s.linkAndJump d addr) := rfl

theorem exec_jalr : exec (.jalr d r) s =
    .next (s.linkAndJump d (jalrTarget d r s)) := rfl

theorem exec_ret : exec .ret s =
    .next (((s.memRead s.sp).2.setSp (s.sp + 1)).setPc (s.memRead s.sp).1) := rfl

theorem exec_push : exec (.push r) s =
    .next (((s.memWrite s.sp (s.reg r)).setSp (s.sp - 1)).advance 2) := rfl

theorem exec_pop : exec (.pop d) s =
    .next ((((s.memRead (s.sp + 1)).2.setSp (s.sp + 1)).setReg d (s.memRead (s.sp + 1)).1).advance 2) := rfl

theorem exec_beq : exec (.beq s1 s2 off) s =
    .next (s.branchIf (decide (s.reg s1 = s.reg s2)) off) := rfl

theorem exec_bne : exec (.bne s1 s2 off) s =
    .next (s.branchIf (decide (s.reg s1 ≠ s.reg s2)) off) := rfl

theorem exec_blt : exec (.blt s1 s2 off) s =
    .next (s.branchIf (decide ((s.reg s1).toNat < (s.reg s2).toNat)) off) := rfl

theorem exec_bge : exec (.bge s1 s2 off) s =
    .next (s.branchIf (decide ((s.reg s1).toNat ≥ (s.reg s2).toNat)) off) := rfl

theorem exec_ble : exec (.ble s1 s2 off) s =
    .next (s.branchIf (decide ((s.reg s1).toNat ≤ (s.reg s2).toNat)) off) := rfl

theorem exec_bgt : exec (.bgt s1 s2 off) s =
    .next (s.branchIf (decide ((s.reg s1).toNat > (s.reg s2).toNat)) off) := rfl

theorem exec_ldr : exec (.ldr d addr) s =
    .next (((s.memRead addr).2.setReg d (s.memRead addr).1).advance 3) := rfl

theorem exec_inp : exec (.inp d addr) s =
    .next (((s.memRead addr).2.setReg d (s.memRead addr).1).advance 3) := rfl

theorem exec_str : exec (.str addr r) s =
    .next ((s.memWrite addr (s.reg r)).advance 3) := rfl

theorem exec_out : exec (.out addr r) s =
    .next ((s.memWrite addr (s.reg r)).advance 3) := rfl

theorem exec_ldi : exec (.ldi d imm) s =
    .next ((s.setReg d imm).advance 3) := rfl

theorem exec_mov : exec (.mov d r) s =
    .next ((s.setReg d (s.reg r)).advance 3) := rfl

theorem exec_nop : exec .nop s =
    .next (s.advance 1) := rfl

theorem exec_hlt : exec .hlt s =
    .next ((s.setRun .halted).advance 1) := rfl

end

/-- Every instruction has a next state. -/
theorem exec_next (i : Instr) (s : State) : ∃ t, exec i s = .next t := by
  cases i with
  | div d s1 s2 =>
    by_cases h : s.reg s2 = 0
    · exact ⟨_, exec_div_zero s d s1 s2 h⟩
    · exact ⟨_, exec_div s d s1 s2 h⟩
  | _ => exact ⟨_, rfl⟩

/-- A branch changes PC only. -/
theorem State.branchIf_setPc (s : State) (c : Bool) (off : Byte) :
    ∃ p, s.branchIf c off = s.setPc p := by
  cases c
  · exact ⟨_, rfl⟩
  · exact ⟨_, rfl⟩

/-- The value ADD, SUB and MUL leave in rdest. -/
theorem State.arith_reg (s : State) (d : Reg) (raw : Int) (ovf : Bool) :
    (s.arith d raw ovf).reg d = truncate raw := by simp [State.arith]

/-- ADD, SUB and MUL keep every other register. -/
theorem State.arith_reg_ne (s : State) {d r : Reg} (raw : Int) (ovf : Bool) (h : r ≠ d) :
    (s.arith d raw ovf).reg r = s.reg r := by simp [State.arith, State.reg_setReg_ne _ _ h]

/-- FLAGS after ADD, SUB and MUL, bit by bit: V written last, then S, then C. -/
theorem State.arith_flags (s : State) (d : Reg) (raw : Int) (ovf : Bool) (p : Fin 8) :
    flagAt (s.arith d raw ovf).flags p =
      if p = s.cfg.flagBits.v then ovf
      else if p = s.cfg.flagBits.s then signOf (truncate raw)
      else if p = s.cfg.flagBits.c then carryOf raw else flagAt s.flags p := by
  simp [State.arith, flagAt_setFlagAt]

/-- JAL and JALR: the link register, SP and PC. -/
theorem State.linkAndJump_spec (s : State) (d : Reg) (target : Byte) :
    (s.linkAndJump d target).reg d = s.pc + 3 ∧ (s.linkAndJump d target).sp = s.sp + 1 ∧
      (s.linkAndJump d target).pc = target := by
  simp [State.linkAndJump, State.link]

end Sys2Proof.Machine
end

