-- ==== Sys2Proof/Laws/PerInstr.lean ====
section
/-! SUPPORT. One lemma per instruction: its machine code has its length, 1 to 4 bytes, and begins with
its opcode byte, in every opcode map (spec 30_encoding.md R81, R82). -/

namespace Sys2Proof.Laws.EncodedLength

/-- The machine code is the opcode byte and one byte per operand shape. -/
def Statement (i : Instr) : Prop :=
  ∀ m : OpcodeMap, (encode m i).length = i.length ∧ 1 ≤ i.length ∧ i.length ≤ 4 ∧
    (encode m i).head? = some (m.byteOf i.op)

theorem nop : Statement .nop :=
  fun _ => ⟨rfl, (Op.length_bounds .nop).1, (Op.length_bounds .nop).2, rfl⟩

theorem add (a : Reg) (b : Reg) (c : Reg) : Statement (.add a b c) :=
  fun _ => ⟨rfl, (Op.length_bounds .add).1, (Op.length_bounds .add).2, rfl⟩

theorem sub (a : Reg) (b : Reg) (c : Reg) : Statement (.sub a b c) :=
  fun _ => ⟨rfl, (Op.length_bounds .sub).1, (Op.length_bounds .sub).2, rfl⟩

theorem mul (a : Reg) (b : Reg) (c : Reg) : Statement (.mul a b c) :=
  fun _ => ⟨rfl, (Op.length_bounds .mul).1, (Op.length_bounds .mul).2, rfl⟩

theorem div (a : Reg) (b : Reg) (c : Reg) : Statement (.div a b c) :=
  fun _ => ⟨rfl, (Op.length_bounds .div).1, (Op.length_bounds .div).2, rfl⟩

theorem and (a : Reg) (b : Reg) (c : Reg) : Statement (.and a b c) :=
  fun _ => ⟨rfl, (Op.length_bounds .and).1, (Op.length_bounds .and).2, rfl⟩

theorem or (a : Reg) (b : Reg) (c : Reg) : Statement (.or a b c) :=
  fun _ => ⟨rfl, (Op.length_bounds .or).1, (Op.length_bounds .or).2, rfl⟩

theorem xor (a : Reg) (b : Reg) (c : Reg) : Statement (.xor a b c) :=
  fun _ => ⟨rfl, (Op.length_bounds .xor).1, (Op.length_bounds .xor).2, rfl⟩

theorem not (a : Reg) (b : Reg) : Statement (.not a b) :=
  fun _ => ⟨rfl, (Op.length_bounds .not).1, (Op.length_bounds .not).2, rfl⟩

theorem shl (a : Reg) (b : Reg) (c : Reg) : Statement (.shl a b c) :=
  fun _ => ⟨rfl, (Op.length_bounds .shl).1, (Op.length_bounds .shl).2, rfl⟩

theorem shr (a : Reg) (b : Reg) (c : Reg) : Statement (.shr a b c) :=
  fun _ => ⟨rfl, (Op.length_bounds .shr).1, (Op.length_bounds .shr).2, rfl⟩

theorem jal (a : Reg) (b : Byte) : Statement (.jal a b) :=
  fun _ => ⟨rfl, (Op.length_bounds .jal).1, (Op.length_bounds .jal).2, rfl⟩

theorem jalr (a : Reg) (b : Reg) : Statement (.jalr a b) :=
  fun _ => ⟨rfl, (Op.length_bounds .jalr).1, (Op.length_bounds .jalr).2, rfl⟩

theorem ret : Statement .ret :=
  fun _ => ⟨rfl, (Op.length_bounds .ret).1, (Op.length_bounds .ret).2, rfl⟩

theorem push (a : Reg) : Statement (.push a) :=
  fun _ => ⟨rfl, (Op.length_bounds .push).1, (Op.length_bounds .push).2, rfl⟩

theorem pop (a : Reg) : Statement (.pop a) :=
  fun _ => ⟨rfl, (Op.length_bounds .pop).1, (Op.length_bounds .pop).2, rfl⟩

theorem beq (a : Reg) (b : Reg) (c : Byte) : Statement (.beq a b c) :=
  fun _ => ⟨rfl, (Op.length_bounds .beq).1, (Op.length_bounds .beq).2, rfl⟩

theorem bne (a : Reg) (b : Reg) (c : Byte) : Statement (.bne a b c) :=
  fun _ => ⟨rfl, (Op.length_bounds .bne).1, (Op.length_bounds .bne).2, rfl⟩

theorem blt (a : Reg) (b : Reg) (c : Byte) : Statement (.blt a b c) :=
  fun _ => ⟨rfl, (Op.length_bounds .blt).1, (Op.length_bounds .blt).2, rfl⟩

theorem bge (a : Reg) (b : Reg) (c : Byte) : Statement (.bge a b c) :=
  fun _ => ⟨rfl, (Op.length_bounds .bge).1, (Op.length_bounds .bge).2, rfl⟩

theorem ble (a : Reg) (b : Reg) (c : Byte) : Statement (.ble a b c) :=
  fun _ => ⟨rfl, (Op.length_bounds .ble).1, (Op.length_bounds .ble).2, rfl⟩

theorem bgt (a : Reg) (b : Reg) (c : Byte) : Statement (.bgt a b c) :=
  fun _ => ⟨rfl, (Op.length_bounds .bgt).1, (Op.length_bounds .bgt).2, rfl⟩

theorem ldr (a : Reg) (b : Byte) : Statement (.ldr a b) :=
  fun _ => ⟨rfl, (Op.length_bounds .ldr).1, (Op.length_bounds .ldr).2, rfl⟩

theorem str (a : Byte) (b : Reg) : Statement (.str a b) :=
  fun _ => ⟨rfl, (Op.length_bounds .str).1, (Op.length_bounds .str).2, rfl⟩

theorem ldi (a : Reg) (b : Byte) : Statement (.ldi a b) :=
  fun _ => ⟨rfl, (Op.length_bounds .ldi).1, (Op.length_bounds .ldi).2, rfl⟩

theorem mov (a : Reg) (b : Reg) : Statement (.mov a b) :=
  fun _ => ⟨rfl, (Op.length_bounds .mov).1, (Op.length_bounds .mov).2, rfl⟩

theorem inp (a : Reg) (b : Byte) : Statement (.inp a b) :=
  fun _ => ⟨rfl, (Op.length_bounds .inp).1, (Op.length_bounds .inp).2, rfl⟩

theorem out (a : Byte) (b : Reg) : Statement (.out a b) :=
  fun _ => ⟨rfl, (Op.length_bounds .out).1, (Op.length_bounds .out).2, rfl⟩

theorem hlt : Statement .hlt :=
  fun _ => ⟨rfl, (Op.length_bounds .hlt).1, (Op.length_bounds .hlt).2, rfl⟩

end Sys2Proof.Laws.EncodedLength
end

