-- ==== Sys2Proof/Laws/Step.lean ====
section
/-! SUPPORT. What fetching and one step can do, said once. -/

namespace Sys2Proof.Machine

/-- Fetching changes the keyboard queue only, by dropping some of its oldest bytes. -/
theorem State.fetch_state (s : State) : ∃ q, s.fetch.2 = s.setFifo q ∧ q <:+ s.kbdFifo := by
  obtain ⟨q1, e1, h1⟩ := s.memRead_state s.pc
  simp only [State.fetch]
  split
  · exact ⟨q1, e1, h1⟩
  · rename_i o _
    obtain ⟨q2, e2, h2⟩ := (s.memRead s.pc).2.readBytes_state o.shapes.length (s.pc + 1)
    have e3 : ((s.memRead s.pc).2.readBytes o.shapes.length (s.pc + 1)).2 = s.setFifo q2 := by
      rw [e2, e1]
      rfl
    rw [e1] at h2
    split <;> exact ⟨q2, e3, h2.trans h1⟩

/-- Fetching pops the keyboard exactly once if one of the bytes it reads lies at `KBD_ADDR`, and
otherwise changes nothing. -/
theorem State.fetch_kbdFifo (s : State) :
    ((∃ k < s.fetchLength, s.pc + BitVec.ofNat 8 k = s.cfg.kbdAddr) →
      s.fetch.2.kbdFifo = s.kbdFifo.tail) ∧
    ((∀ k < s.fetchLength, s.pc + BitVec.ofNat 8 k ≠ s.cfg.kbdAddr) →
      s.fetch.2.kbdFifo = s.kbdFifo) := by
  have hl : s.fetchLength ≤ 256 := by
    unfold State.fetchLength
    split
    · omega
    · rename_i o _
      have := o.length_bounds
      omega
  have e : s.fetch.2 = (s.readBytes s.fetchLength s.pc).2 := by
    cases ho : s.cfg.opcodes.lookup (s.memRead s.pc).1 with
    | none =>
      simp only [State.fetch, State.fetchLength, ho]
      rfl
    | some o =>
      simp only [State.fetch, State.fetchLength, ho, Op.length, Nat.add_comm 1]
      split <;> rfl
  rw [e]
  exact ⟨State.readBytes_kbdFifo hl, fun h => by rw [State.readBytes_plain h]⟩

theorem step_running {s : State} (h : s.run = .running) :
    step s = match s.fetch with
      | (.ok i, s1) => exec i s1
      | (.error (cause, b), s1) => .next (s1.raise cause b) := by
  unfold step
  split <;> first | rfl | simp_all

theorem step_not_running {s : State} (h : s.run ≠ .running) : step s = .next s := by
  cases hr : s.run with
  | running => exact absurd hr h
  | halted => simp only [step, hr]
  | faulted => simp only [step, hr]

/-- A step changes nothing because the core does not run, or performs the fetched instruction, or
raises the fault the fetch found. -/
theorem step_cases {s t : State} (h : step s = .next t) :
    (s.run ≠ .running ∧ t = s) ∨
    (s.run = .running ∧ ∃ i, s.fetch.1 = .ok i ∧ exec i s.fetch.2 = .next t) ∨
    (s.run = .running ∧ ∃ cause b, s.fetch.1 = .error (cause, b) ∧ t = s.fetch.2.raise cause b) := by
  by_cases hr : s.run = .running
  · rw [step_running hr] at h
    rcases hf : s.fetch with ⟨⟨cause, b⟩ | i, s1⟩ <;> rw [hf] at h
    · cases h
      exact .inr (.inr ⟨hr, cause, b, rfl, rfl⟩)
    · exact .inr (.inl ⟨hr, i, rfl, h⟩)
  · rw [step_not_running hr] at h
    cases h
    exact .inl ⟨hr, rfl⟩

theorem runSteps_zero (s : State) : runSteps 0 s = .next s := rfl

/-- One more step at the front of a run. -/
theorem runSteps_succ {n : Nat} {s t : State} (h : step s = .next t) :
    runSteps (n + 1) s = runSteps n t := by
  have e : Sys2Proof.core.step s = .next t := h
  show Host.Core.run Sys2Proof.core (n + 1) s = _
  simp only [Host.Core.run, e]
  rfl

end Sys2Proof.Machine
end

