-- ==== Sys2Proof/Tests/Slice0.lean ====
section
/-! SUPPORT. Tests: every expected value is written out from the spec (95_test_vectors.md, or the rule
named), and for each obligation with hypotheses a witness that meets them. -/

namespace Sys2Proof.Tests

open Sys2Proof.Machine

/-! ## Well-formedness refuses -/

theorem test_wf_default : defaultCfg.wf = true := by decide
theorem test_wf_ram_below_rom : (Cfg.wf { defaultCfg with romBase := 0x80 }) = false := by decide
theorem test_wf_stack_below_ram : (Cfg.wf { defaultCfg with stackBase := 0x80 }) = false := by decide
theorem test_wf_io_below_stack : (Cfg.wf { defaultCfg with ioBase := 0xC0 }) = false := by decide
theorem test_wf_keyboard_outside_io : (Cfg.wf { defaultCfg with kbdAddr := 0xEF }) = false := by decide
theorem test_wf_opcode_twice :
    (Cfg.wf { defaultCfg with opcodes := { defaultOpcodes with hlt := 0 } }) = false := by decide
theorem test_wf_flag_bit_twice :
    (Cfg.wf { defaultCfg with flagBits := { defaultFlagBits with i := 0 } }) = false := by decide
theorem test_wf_ipf_zero : (Cfg.wf { defaultCfg with ipf := 0 }) = false := by decide
/-- Z2: 129 bytes do not fit, 128 do. -/
theorem test_image_too_large : defaultCfg.imageFits (List.replicate 129 0) = false ∧
    defaultCfg.imageFits (List.replicate 128 0) = true := by
  simp [Cfg.imageFits, defaultCfg]
theorem test_register_byte_8 : Shape.registerDest.legal 8 = false ∧
    Shape.registerSrc.legal 8 = false ∧ Shape.registerSrc.legal 7 = true := by decide
theorem test_first_illegal : firstIllegal Op.add.shapes [2, 8, 9] = some 8 := by decide
theorem test_memory_not_canonical : Memory.wf [(2, 1), (1, 1)] = false ∧
    Memory.wf [(1, 1), (1, 2)] = false ∧ Memory.wf [(1, 0)] = false ∧
    Memory.wf [(256, 1)] = false ∧ Memory.wf [(0, 1), (255, 2)] = true := by decide

/-! ## Decoding: one word of every mnemonic, written out from 30_encoding.md R83 and R90 -/

theorem test_decode_nop : decode defaultOpcodes [0x00] = .ok (.nop, []) := by decide
theorem test_decode_add : decode defaultOpcodes [0x01, 0x02, 0x00, 0x01] = .ok (.add .r2 .r0 .r1, []) := by decide
theorem test_decode_sub : decode defaultOpcodes [0x02, 0x03, 0x07, 0x04] = .ok (.sub .r3 .r7 .r4, []) := by decide
theorem test_decode_mul : decode defaultOpcodes [0x03, 0x02, 0x00, 0x01] = .ok (.mul .r2 .r0 .r1, []) := by decide
theorem test_decode_div : decode defaultOpcodes [0x04, 0x05, 0x06, 0x01] = .ok (.div .r5 .r6 .r1, []) := by decide
theorem test_decode_and : decode defaultOpcodes [0x05, 0x02, 0x00, 0x01] = .ok (.and .r2 .r0 .r1, []) := by decide
theorem test_decode_or : decode defaultOpcodes [0x06, 0x02, 0x00, 0x01] = .ok (.or .r2 .r0 .r1, []) := by decide
theorem test_decode_xor : decode defaultOpcodes [0x07, 0x02, 0x00, 0x01] = .ok (.xor .r2 .r0 .r1, []) := by decide
theorem test_decode_not : decode defaultOpcodes [0x08, 0x01, 0x00] = .ok (.not .r1 .r0, []) := by decide
theorem test_decode_shl : decode defaultOpcodes [0x09, 0x02, 0x00, 0x01] = .ok (.shl .r2 .r0 .r1, []) := by decide
theorem test_decode_shr : decode defaultOpcodes [0x0A, 0x02, 0x00, 0x01] = .ok (.shr .r2 .r0 .r1, []) := by decide
theorem test_decode_jal : decode defaultOpcodes [0x0B, 0x07, 0x10] = .ok (.jal .r7 0x10, []) := by decide
theorem test_decode_jalr : decode defaultOpcodes [0x0C, 0x06, 0x03] = .ok (.jalr .r6 .r3, []) := by decide
theorem test_decode_ret : decode defaultOpcodes [0x0D] = .ok (.ret, []) := by decide
theorem test_decode_push : decode defaultOpcodes [0x0E, 0x03] = .ok (.push .r3, []) := by decide
theorem test_decode_pop : decode defaultOpcodes [0x0F, 0x01] = .ok (.pop .r1, []) := by decide
theorem test_decode_beq : decode defaultOpcodes [0x10, 0x00, 0x01, 0x05] = .ok (.beq .r0 .r1 0x05, []) := by decide
theorem test_decode_bne : decode defaultOpcodes [0x11, 0x01, 0x03, 0xF5] = .ok (.bne .r1 .r3 0xF5, []) := by decide
theorem test_decode_blt : decode defaultOpcodes [0x12, 0x00, 0x01, 0x0A] = .ok (.blt .r0 .r1 0x0A, []) := by decide
theorem test_decode_bge : decode defaultOpcodes [0x13, 0x00, 0x01, 0x0A] = .ok (.bge .r0 .r1 0x0A, []) := by decide
theorem test_decode_ble : decode defaultOpcodes [0x14, 0x00, 0x01, 0x0A] = .ok (.ble .r0 .r1 0x0A, []) := by decide
theorem test_decode_bgt : decode defaultOpcodes [0x15, 0x00, 0x01, 0xFD] = .ok (.bgt .r0 .r1 0xFD, []) := by decide
theorem test_decode_ldr : decode defaultOpcodes [0x16, 0x01, 0x80] = .ok (.ldr .r1 0x80, []) := by decide
theorem test_decode_str : decode defaultOpcodes [0x17, 0x80, 0x00] = .ok (.str 0x80 .r0, []) := by decide
theorem test_decode_ldi : decode defaultOpcodes [0x18, 0x00, 0x05] = .ok (.ldi .r0 0x05, []) := by decide
theorem test_decode_mov : decode defaultOpcodes [0x19, 0x04, 0x03] = .ok (.mov .r4 .r3, []) := by decide
theorem test_decode_inp : decode defaultOpcodes [0x1A, 0x00, 0xF0] = .ok (.inp .r0 0xF0, []) := by decide
theorem test_decode_out : decode defaultOpcodes [0x1B, 0xF0, 0x00] = .ok (.out 0xF0 .r0, []) := by decide
theorem test_decode_hlt : decode defaultOpcodes [0x1C] = .ok (.hlt, []) := by decide

/-- F2, F3, F4, F6, F7, F8: what is and is not checked. -/
theorem test_decode_rejects :
    decode defaultOpcodes [0x1D] = .error (.illegalOpcode 0x1D) ∧
    decode defaultOpcodes [0x19, 0x09, 0x00] = .error (.illegalRegister 0x09) ∧
    decode defaultOpcodes [0x01, 0x02, 0x08, 0x09] = .error (.illegalRegister 0x08) ∧
    decode defaultOpcodes [0x18, 0x07, 0x08] = .ok (.ldi .r7 0x08, []) ∧
    decode defaultOpcodes [0x17, 0x09, 0x00] = .ok (.str 0x09 .r0, []) ∧
    decode defaultOpcodes [0x10, 0x00, 0x01, 0x09] = .ok (.beq .r0 .r1 0x09, []) := by decide

theorem test_decode_truncated : decode defaultOpcodes [0x01, 0x02] = .error .truncated := by decide

theorem test_decode_table_word : decodeTableWord 8 0x04 = some (.div .r0 .r0 .r0) ∧
    decodeTableWord 32 0xF5030111 = some (.bne .r1 .r3 0xF5) ∧ decodeTableWord 8 0xFF = none := by
  decide

/-! ## One step -/

/-- What is read off the next state. -/
def after {α : Type} (o : Host.Outcome State Fault Refusal) (f : State → α) : Option α :=
  match o with
  | .next t => some (f t)
  | .fault _ => none
  | .refused _ => none

/-- Reset with R0 and R1 given, C = S = V = 1 and the instruction's bytes at address `a`. -/
def start (r0 r1 a : Byte) (bytes : List Byte) : State :=
  ((((State.reset.setReg .r0 r0).setReg .r1 r1).setPc a).placeBytes a bytes).setFlags 0x0E

/-- R2 and C, S, V. -/
def r2csv (s : State) : Byte × Bool × Bool × Bool := (s.reg .r2, s.flagC, s.flagS, s.flagV)

/-- A5. -/
theorem test_add_carry_and_overflow :
    after (step (start 0x80 0x80 0 [1, 2, 0, 1])) r2csv = some (0x00, true, false, true) := by decide
/-- A10: sources are read before the destination is written. -/
theorem test_add_in_place :
    after (step (start 0x81 0 0 [1, 0, 0, 0])) (fun t => (t.reg .r0, t.pc, t.flags)) =
      some (0x02, 4, 0x0A) := by decide
/-- B6. -/
theorem test_sub_borrow_and_overflow :
    after (step (start 0x7F 0xFF 0 [2, 2, 0, 1])) r2csv = some (0x80, true, true, true) := by decide
/-- B9. -/
theorem test_sub_in_range :
    after (step (start 0xFF 0x7F 0 [2, 2, 0, 1])) r2csv = some (0x80, false, true, false) := by decide
/-- M4. -/
theorem test_mul_heuristic :
    after (step (start 0xFF 0xFF 0 [3, 2, 0, 1])) r2csv = some (0x01, true, false, true) := by decide
/-- M3. -/
theorem test_mul_missed_overflow :
    after (step (start 0x10 0x10 0 [3, 2, 0, 1])) r2csv = some (0x00, true, false, false) := by decide
/-- DV6. -/
theorem test_div : after (step (start 0xC8 0x03 0 [4, 2, 0, 1])) r2csv =
    some (0x42, false, true, false) := by decide
/-- DV8. -/
theorem test_div_by_zero :
    after (step (start 0x09 0x00 0 [4, 2, 0, 1])) (fun t => (t.run, t.faultInfo, t.pc)) =
      some (.faulted, some ⟨.divideByZero, 0, 1⟩, 0) ∧
    after (step (start 0x09 0x00 0 [4, 2, 0, 1])) r2csv = some (0, true, true, true) := by decide
/-- LG1. -/
theorem test_and : after (step (start 0xF0 0x3C 0 [5, 2, 0, 1])) (fun t => (t.reg .r2, t.flags)) =
    some (0x30, 0x0E) := by decide
/-- LG1. -/
theorem test_or : after (step (start 0xF0 0x3C 0 [6, 2, 0, 1])) (fun t => (t.reg .r2, t.flags)) =
    some (0xFC, 0x0E) := by decide
/-- LG1. -/
theorem test_xor : after (step (start 0xF0 0x3C 0 [7, 2, 0, 1])) (fun t => (t.reg .r2, t.flags)) =
    some (0xCC, 0x0E) := by decide
/-- LG5. -/
theorem test_not : after (step (start 0x80 0 0 [8, 2, 0])) (fun t => (t.reg .r2, t.pc)) =
    some (0x7F, 3) := by decide
/-- H1 and H6. -/
theorem test_shl : after (step (start 0x81 0x01 0 [9, 2, 0, 1])) r2csv =
      some (0x02, true, true, true) ∧
    after (step (start 0xFF 0xFF 0 [9, 2, 0, 1])) (·.reg .r2) = some 0 := by decide
/-- H2 and H3: amounts 7 and 8. -/
theorem test_shl_boundary : after (step (start 0x01 0x07 0 [9, 2, 0, 1])) (·.reg .r2) = some 0x80 ∧
    after (step (start 0x01 0x08 0 [9, 2, 0, 1])) (·.reg .r2) = some 0 := by decide
/-- H7 and H3: amounts 7 and 8, logical. -/
theorem test_shr : after (step (start 0x80 0x07 0 [10, 2, 0, 1])) (·.reg .r2) = some 0x01 ∧
    after (step (start 0x01 0x08 0 [10, 2, 0, 1])) (·.reg .r2) = some 0x00 := by decide
/-- J2: the link wraps. -/
theorem test_jal :
    after (step ((start 0 0 0xFD [0x0B, 0, 0x40]).setSp 0xC5))
      (fun t => (t.reg .r0, t.sp, t.pc, Memory.read t.mem 0xC5)) = some (0, 0xC6, 0x40, 0) := by decide
/-- J9: SP at the keyboard. -/
theorem test_jal_keyboard :
    after (step ((start 0 0 0x07 [0x0B, 7, 0x10]).setSp 0xF0))
      (fun t => (t.reg .r7, t.kbdFifo, t.sp, t.pc)) = some (0x0A, [0x0A], 0xF1, 0x10) := by decide
/-- J4. -/
theorem test_jalr :
    after (step (((start 0 0 0x20 [0x0C, 6, 3]).setReg .r3 0x40).setSp 0xC1))
      (fun t => (t.reg .r6, Memory.read t.mem 0xC1, t.sp, t.pc)) =
      some (0x23, 0x23, 0xC2, 0x40) := by decide
/-- J5, and the other value of `JALR_SAME_REG` from R163's own words. -/
theorem test_jalr_same_register :
    after (exec (.jalr .r7 .r7) (((start 0 0 0x20 []).setReg .r7 0x40)))
      (fun t => (t.reg .r7, t.pc)) = some (0x23, 0x40) ∧
    after (exec (.jalr .r7 .r7)
        { (start 0 0 0x20 []).setReg .r7 0x40 with
          cfg := { defaultCfg with jalrSameReg := .destFirst } })
      (fun t => (t.reg .r7, t.pc)) = some (0x23, 0x23) := by decide
/-- J6. -/
theorem test_ret :
    after (step ((start 0 0 0x30 [0x0D]).setMem 0xC0 0x0A)) (fun t => (t.pc, t.sp)) =
      some (0x0A, 0xC1) := by decide
/-- J7 and J8. -/
theorem test_ret_keyboard :
    after (step (((start 0 0 0x30 [0x0D]).setSp 0xF0).setFifo [0x55]))
      (fun t => (t.pc, t.sp, t.kbdFifo)) = some (0x55, 0xF1, []) ∧
    after (step ((start 0 0 0x30 [0x0D]).setSp 0xF0)) (fun t => (t.pc, t.sp)) =
      some (0, 0xF1) := by decide
/-- K2: SP wraps downward, and ROM is written. -/
theorem test_push_wraps :
    after (exec (.push .r0) ((start 0x77 0 0x40 []).setSp 0))
      (fun t => (Memory.read t.mem 0, t.sp, t.pc)) = some (0x77, 0xFF, 0x42) := by decide
/-- K5. -/
theorem test_push_keyboard :
    after (step ((start 0x21 0 0 [0x0E, 0]).setSp 0xF0))
      (fun t => (t.kbdFifo, Memory.read t.mem 0xF0, t.sp)) = some ([0x21], 0, 0xEF) := by decide
/-- K3: SP wraps upward. -/
theorem test_pop_wraps :
    after (exec (.pop .r2) (((start 0 0 0x40 []).setSp 0xFF).setMem 0 0x5A))
      (fun t => (t.reg .r2, t.sp)) = some (0x5A, 0) := by decide
/-- K4. -/
theorem test_pop_keyboard :
    after (step (((start 0 0 0 [0x0F, 2]).setSp 0xEF).setFifo [0x31, 0x32]))
      (fun t => (t.reg .r2, t.sp, t.kbdFifo)) = some (0x31, 0xF0, [0x32]) := by decide
/-- BT1, and BC3 not taken. -/
theorem test_beq : after (step (start 7 7 0x20 [0x10, 0, 1, 5])) (·.pc) = some 0x28 ∧
    after (step (start 5 3 0x20 [0x10, 0, 1, 5])) (·.pc) = some 0x24 := by decide
/-- BT2. -/
theorem test_bne : after (step (start 4 0 0x14 [0x11, 0, 1, 0xF5])) (·.pc) = some 0x0C ∧
    after (step (start 0 0 0x14 [0x11, 0, 1, 0xF5])) (·.pc) = some 0x18 := by decide
/-- BC4 (unsigned), BC1. -/
theorem test_blt : after (step (start 0x7F 0x80 0 [0x12, 0, 1, 0x0A])) (·.pc) = some 0x0D ∧
    after (step (start 5 5 0 [0x12, 0, 1, 0x0A])) (·.pc) = some 4 := by decide
/-- BC1, BC4. -/
theorem test_bge : after (step (start 5 5 0 [0x13, 0, 1, 0x0A])) (·.pc) = some 0x0D ∧
    after (step (start 0x7F 0x80 0 [0x13, 0, 1, 0x0A])) (·.pc) = some 4 := by decide
/-- BC1, and R191's example. -/
theorem test_ble : after (step (start 5 5 0 [0x14, 0, 1, 0x0A])) (·.pc) = some 0x0D ∧
    after (step (start 6 5 0 [0x14, 0, 1, 0x0A])) (·.pc) = some 4 := by decide
/-- BC5 with BT4, BC1. -/
theorem test_bgt : after (step (start 0xFF 0 0 [0x15, 0, 1, 0xFD])) (·.pc) = some 0 ∧
    after (step (start 5 5 0 [0x15, 0, 1, 0xFD])) (·.pc) = some 4 := by decide
/-- BT3, BT7, BT8 and R186's three special offsets. -/
theorem test_branch_targets : branchTarget 0xF0 0x7F = 0x72 ∧ branchTarget 0x02 0x80 = 0x85 ∧
    branchTarget 0xFE 0x7F = 0x80 ∧ branchTarget 0x10 0x01 = 0x14 ∧ branchTarget 0x10 0x00 = 0x13 ∧
    branchTarget 0x10 0xFD = 0x10 := by decide
/-- LS9: the instruction's own opcode byte. -/
theorem test_ldr : after (step (start 0 0 0 [0x16, 0, 0])) (fun t => (t.reg .r0, t.pc)) =
    some (0x16, 3) := by decide
/-- IO2. -/
theorem test_ldr_keyboard : after (step ((start 0 0 0 [0x16, 1, 0xF0]).setFifo [0x42]))
    (fun t => (t.reg .r1, t.kbdFifo)) = some (0x42, []) := by decide
/-- LS8: the store overwrites its own third byte after it was fetched. -/
theorem test_str_own_byte : after (step (start 9 0 0 [0x17, 2, 0]))
    (fun t => (Memory.read t.mem 2, t.pc)) = some (9, 3) := by decide
/-- LS1 to LS3: no flag is written. -/
theorem test_ldi : after (step (start 9 0 0 [0x18, 0, 0])) (fun t => (t.reg .r0, t.flags)) =
    some (0, 0x0E) := by decide
/-- LS4. -/
theorem test_mov : after (step (start 0x5A 0 0 [0x19, 1, 0])) (fun t => (t.reg .r1, t.reg .r0)) =
    some (0x5A, 0x5A) := by decide
/-- IO1 and IO3. -/
theorem test_in : after (step ((start 9 0 0 [0x1A, 0, 0xF0]).setFifo [0x41, 0x42]))
      (fun t => (t.reg .r0, t.kbdFifo)) = some (0x41, [0x42]) ∧
    after (step (start 9 0 0 [0x1A, 0, 0xF0])) (fun t => (t.reg .r0, t.kbdFifo)) =
      some (0, []) := by decide
/-- IO4 and IO5. -/
theorem test_out : after (step ((start 0x41 0 0 [0x1B, 0xF0, 0]).setFifo [7]))
      (fun t => (t.kbdFifo, Memory.read t.mem 0xF0)) = some ([7, 0x41], 0) ∧
    after (step (start 0x41 0 0 [0x1B, 0xF1, 0])) (fun t => Memory.read t.mem 0xF1) =
      some 0x41 := by decide
/-- Y2. -/
theorem test_nop_wraps : after (step (start 0 0 0xFF [0])) (·.pc) = some 0 := by decide
/-- Y3. -/
theorem test_hlt : after (step (start 0 0 0x0A [0x1C])) (fun t => (t.run, t.pc)) =
    some (.halted, 0x0B) := by decide
/-- F1. -/
theorem test_illegal_opcode : after (step (start 0 0 3 [0xFF])) (fun t => (t.run, t.faultInfo, t.pc)) =
    some (.faulted, some ⟨.illegalOpcode, 3, 0xFF⟩, 3) := by decide
/-- F5: IllegalRegister before DivideByZero. -/
theorem test_illegal_register_first : after (step (start 0 0 3 [4, 9, 0, 1])) (·.faultInfo) =
    some (some ⟨.illegalRegister, 3, 9⟩) := by decide
/-- J10: nothing is written. -/
theorem test_illegal_register_precise : after (step (start 0 0 0 [0x0B, 8, 0x10]))
    (fun t => (t.faultInfo, t.sp, t.pc)) = some (some ⟨.illegalRegister, 0, 8⟩, 0xC0, 0) := by decide
/-- U18 and R63: an instruction fetched from the keyboard, LDI R0,#7; R43: bytes popped by a step that
faults stay popped. -/
theorem test_fetch_from_keyboard :
    after (step (((start 0 0 0xF0 []).setMem 0xF1 0).setFifo [0x00, 0x55]))
      (fun t => (t.pc, t.kbdFifo)) = some (0xF1, [0x55]) ∧
    after (step ((start 0 0 0xF0 []).setFifo [0xFF, 0x55]))
      (fun t => (t.faultInfo, t.kbdFifo)) = some (some ⟨.illegalOpcode, 0xF0, 0xFF⟩, [0x55]) := by
  decide
/-- Y4, Y5: no step once stopped. -/
theorem test_no_step_when_stopped :
    after (step ((start 0 0 0 [0x1C]).setRun .halted)) (fun t => (t.run, t.pc)) =
      some (.halted, 0) ∧
    after (step ((start 0 0 0 [0x1C]).setRun .faulted)) (fun t => (t.run, t.pc)) =
      some (.faulted, 0) := by decide
/-- IO8. -/
theorem test_key_event : after (perform ((start 0 0 0 []).setFifo [7]) (.key 0x61))
    (fun t => (t.kbdFifo, t.pc)) = some ([7, 0x61], 0) := by decide
/-- The host's placing of an instruction: JAL R7,0x10 as the first step after reset. -/
theorem test_with_fetch_word : after (step (State.reset.withFetchWord 24 0x10070B))
    (fun t => (t.reg .r7, t.sp, t.pc)) = some (3, 0xC1, 0x10) := by decide
set_option maxRecDepth 8000 in
/-- Z1: what construction leaves, with the image of P1. -/
theorem test_construct :
    (match construct defaultCfg [0x18, 0, 5, 0x18, 1, 3, 1, 2, 0, 1, 0x1C] (fun _ => 0) (fun _ => 0)
      with
      | .ok s => (s.pc, s.sp, s.ir, s.flags, s.run, Memory.read s.mem 0x0A)
      | .error _ => (1, 1, 1, 1, .faulted, 1)) = (0, 0xC0, 0, 0, .running, 0x1C) := by
  rfl

/-! ## Witnesses: for each obligation with hypotheses, values that meet all of them -/

theorem witness_AddInstruction : State.reset.cfg.wf = true := by decide
theorem witness_SubInstruction : State.reset.cfg.wf = true := by decide
theorem witness_MulInstruction : State.reset.cfg.wf = true := by decide
theorem witness_AndOrXorInstructions : State.reset.cfg.wf = true := by decide
theorem witness_NotInstruction : State.reset.cfg.wf = true := by decide
theorem witness_ShiftLeftInstruction : State.reset.cfg.wf = true := by decide
theorem witness_ShiftRightInstruction : State.reset.cfg.wf = true := by decide
theorem witness_RetInstruction : State.reset.cfg.wf = true := by decide
theorem witness_PopInstruction : State.reset.cfg.wf = true := by decide
theorem witness_EqualityBranches : State.reset.cfg.wf = true := by decide
theorem witness_UnsignedOrderBranches : State.reset.cfg.wf = true := by decide
theorem witness_LdrInstruction : State.reset.cfg.wf = true := by decide
theorem witness_InInstruction : State.reset.cfg.wf = true := by decide
theorem witness_LdiAndMovInstructions : State.reset.cfg.wf = true := by decide
theorem witness_NopInstruction : State.reset.cfg.wf = true := by decide
theorem witness_HltInstruction : State.reset.cfg.wf = true := by decide
theorem witness_JalInstruction :
    State.reset.cfg.wf = true ∧ Memory.wf State.reset.mem = true := by decide
theorem witness_JalrInstruction :
    State.reset.cfg.wf = true ∧ Memory.wf State.reset.mem = true := by decide
theorem witness_PushInstruction :
    State.reset.cfg.wf = true ∧ Memory.wf State.reset.mem = true := by decide
theorem witness_StrInstruction :
    State.reset.cfg.wf = true ∧ Memory.wf State.reset.mem = true := by decide
theorem witness_OutInstruction :
    State.reset.cfg.wf = true ∧ Memory.wf State.reset.mem = true := by decide
theorem witness_DivInstruction : (start 9 2 0 []).cfg.wf = true ∧ (start 9 2 0 []).reg .r1 ≠ 0 := by
  decide
theorem witness_DivByZeroFaults : (start 9 0 0 []).reg .r1 = 0 := by decide
/-- Both clauses of MUL's overflow flag. -/
theorem witness_MulInstruction_overflow_rules : State.reset.cfg.mulOvf = .signAgreement ∧
    (Cfg.wf { defaultCfg with mulOvf := .graph [(1, 1)] }) = true := by decide
/-- Both clauses of JALR's target. -/
theorem witness_JalrInstruction_targets : State.reset.cfg.jalrSameReg = .sourceFirst ∧
    (Cfg.wf { defaultCfg with jalrSameReg := .destFirst }) = true := by decide
/-- Two pushes; `k` = 1 is the last pop. -/
theorem witness_PopsReturnPushesInReverse :
    Memory.wf State.reset.mem = true ∧ 1 < [Reg.r0, Reg.r1].length ∧
    ∀ j < [Reg.r0, Reg.r1].length,
      State.reset.sp - BitVec.ofNat 8 j ≠ State.reset.cfg.kbdAddr := by decide
theorem witness_ReturnIdioms : Memory.wf State.reset.mem = true ∧
    State.reset.sp ≠ State.reset.cfg.kbdAddr ∧ State.reset.sp + 1 ≠ State.reset.cfg.kbdAddr := by
  decide
theorem witness_StoresAreSeenByLoadsAndFetches : Memory.wf (start 0x1C 0 0 []).mem = true ∧
    (0x80 : Byte) ≠ (start 0x1C 0 0 []).cfg.kbdAddr ∧
    (start 0x1C 0 0 []).cfg.opcodes.lookup ((start 0x1C 0 0 []).reg .r0) = some .hlt ∧
    (start 0x1C 0 0 []).run = .running := by decide
theorem witness_HaltedAndFaultedAreTerminal : (State.reset.setRun .halted).run ≠ .running ∧
    (State.reset.setRun .faulted).run ≠ .running := by decide
theorem witness_HaltedOnlyViaHlt : ∃ t, (start 0 0 0 [0x1C]).run = .running ∧
    step (start 0 0 0 [0x1C]) = .next t ∧ t.run = .halted := ⟨_, rfl, rfl, rfl⟩
/-- `STR 0x80,R0` in memory, and an instruction whose opcode comes from the keyboard. -/
theorem witness_StepRunsTheFetchedInstruction :
    (start 0 0 0 [0x17, 0x80, 0]).run = .running ∧
    (start 0 0 0 [0x17, 0x80, 0]).memRead 0 = (0x17, start 0 0 0 [0x17, 0x80, 0]) ∧
    State.reset.cfg.opcodes.lookup 0x17 = some .str ∧
    (start 0 0 0 [0x17, 0x80, 0]).readBytes 2 1 = ([0x80, 0], start 0 0 0 [0x17, 0x80, 0]) ∧
    decode State.reset.cfg.opcodes [0x17, 0x80, 0] = .ok (.str 0x80 .r0, []) := by decide
theorem witness_StepRunsTheFetchedInstruction_keyboard :
    ((start 0 0 0xF0 []).setFifo [0x1C]).memRead 0xF0 =
      (0x1C, (start 0 0 0xF0 []).setFifo []) ∧
    State.reset.cfg.opcodes.lookup 0x1C = some .hlt := by decide
theorem witness_StepRunsTheInstructionInMemory :
    (start 0 0 0 [0x17, 0x80, 0]).run = .running ∧
    decode State.reset.cfg.opcodes [0x17, 0x80, 0, 0] = .ok (.str 0x80 .r0, [0]) ∧
    (List.map (fun k => Memory.read (start 0 0 0 [0x17, 0x80, 0]).mem k) [0, 1, 2, 3]) =
      [0x17, 0x80, 0, 0] ∧
    ∀ k < (Instr.str 0x80 .r0).length, (0 : Byte) + BitVec.ofNat 8 k ≠ State.reset.cfg.kbdAddr := by
  decide
theorem witness_UnassignedOpcodeFaults : (start 0 0 3 [0xFF]).run = .running ∧
    (start 0 0 3 [0xFF]).memRead 3 = (0xFF, start 0 0 3 [0xFF]) ∧
    (0xFF : Byte) ∉ (start 0 0 3 [0xFF]).cfg.opcodes.toList := by decide
theorem witness_IllegalRegisterByteFaults : (start 0 0 3 [0x0E, 8]).run = .running ∧
    (start 0 0 3 [0x0E, 8]).memRead 3 = (0x0E, start 0 0 3 [0x0E, 8]) ∧
    State.reset.cfg.opcodes.lookup 0x0E = some .push ∧
    (start 0 0 3 [0x0E, 8]).readBytes 1 4 = ([8], start 0 0 3 [0x0E, 8]) ∧
    firstIllegal Op.push.shapes [8] = some 8 := by decide
/-- No fetched byte at `KBD_ADDR`. -/
theorem witness_FaultsArePrecise : ∃ t, (start 0 0 3 [0xFF]).run = .running ∧
    step (start 0 0 3 [0xFF]) = .next t ∧ t.run = .faulted ∧
    ∀ k < (start 0 0 3 [0xFF]).fetchLength,
      (start 0 0 3 [0xFF]).pc + BitVec.ofNat 8 k ≠ (start 0 0 3 [0xFF]).cfg.kbdAddr :=
  ⟨_, rfl, rfl, rfl, by decide⟩
/-- The last fetched byte at `KBD_ADDR`, and the byte after the last one there: PUSH with the register
byte 8 at 0xEF, and an unassigned opcode at 0xEF. -/
theorem witness_FaultsArePrecise_keyboard :
    (∃ t, (start 0 0 0xEF [0x0E, 8]).run = .running ∧
      step (start 0 0 0xEF [0x0E, 8]) = .next t ∧ t.run = .faulted ∧
      ∃ k < (start 0 0 0xEF [0x0E, 8]).fetchLength,
        (start 0 0 0xEF [0x0E, 8]).pc + BitVec.ofNat 8 k = State.reset.cfg.kbdAddr) ∧
    (start 0 0 0xEF [0xFF]).fetchLength = 1 ∧
    (start 0 0 0xEF [0xFF]).pc + 1 = State.reset.cfg.kbdAddr :=
  ⟨⟨_, rfl, rfl, rfl, by decide⟩, by decide, by decide⟩
/-- R43 and R242: the operand byte 9 is popped, the next key stays; with the opcode unassigned no key
is popped. -/
theorem test_fault_pops_what_the_fetch_read :
    after (step (((start 0 0 0xEF [0x0E]).setFifo [9, 7]))) (fun t => (t.faultInfo, t.kbdFifo)) =
      some (some ⟨.illegalRegister, 0xEF, 9⟩, [7]) ∧
    after (step (((start 0 0 0xEF [0xFF]).setFifo [9, 7]))) (·.kbdFifo) = some [9, 7] := by decide
/-- A faulting and a completing instruction. -/
theorem witness_OnlyDivByZeroFaultsInExecution : (start 9 0 0 []).run = .running ∧
    (∃ t, exec (.div .r2 .r0 .r1) (start 9 0 0 []) = .next t ∧ t.run = .faulted) ∧
    ∃ t, exec .nop (start 9 0 0 []) = .next t ∧ t.run = .running :=
  ⟨rfl, ⟨_, rfl, rfl⟩, ⟨_, rfl, rfl⟩⟩
theorem witness_BatchBoundariesHaveNoEffect :
    (∃ t, runSteps 1 (start 0 0 0 [0x1C]) = .next t ∧ t.run ≠ .running) ∧
    ∃ t, runSteps 1 (start 0 0 0 [0x00]) = .next t ∧ t.run = .running :=
  ⟨⟨_, rfl, by decide⟩, ⟨_, rfl, by decide⟩⟩
theorem witness_DecodeOfEncode : defaultOpcodes.wf = true := by decide
theorem witness_OnlyRegisterBytesAreChecked : defaultOpcodes.wf = true := by decide
theorem witness_EncodeOfDecode :
    decode defaultOpcodes [0x0E, 3, 0xFF] = .ok (.push .r3, [0xFF]) := by decide
theorem witness_DispatcherRoutesAccesses : Memory.wf State.reset.mem = true := by decide
/-- A store, a load, and a form with no data access. -/
theorem witness_DataAccessesGoWhereTheyAreComputed :
    (∃ t, exec (.push .r0) State.reset = .next t ∧ storeAddr (.push .r0) State.reset = some 0xC0) ∧
    (∃ t, exec (.pop .r0) State.reset = .next t ∧ loadAddr (.pop .r0) State.reset = some 0xC1) ∧
    ∃ t, exec .nop State.reset = .next t ∧ storeAddr .nop State.reset = none :=
  ⟨⟨_, rfl, rfl⟩, ⟨_, rfl, rfl⟩, ⟨_, rfl, rfl⟩⟩
theorem witness_StackPointerMoves : (∃ t, exec (.push .r0) State.reset = .next t) ∧
    (∃ t, exec (.jal .r0 0) State.reset = .next t) ∧ ∃ t, exec .hlt State.reset = .next t :=
  ⟨⟨_, rfl⟩, ⟨_, rfl⟩, ⟨_, rfl⟩⟩
theorem witness_FlagWriters : (∃ t, exec (.add .r0 .r0 .r0) State.reset = .next t) ∧
    ∃ t, exec (.xor .r0 .r0 .r0) State.reset = .next t := ⟨⟨_, rfl⟩, ⟨_, rfl⟩⟩
theorem witness_StepsKeepIrAndConfiguration : ∃ t, step State.reset = .next t := ⟨_, rfl⟩
theorem witness_FlagsSteerNothing : (∃ t, step State.reset = .next t) ∧
    State.reset.cfg.wf = true := ⟨⟨_, rfl⟩, by decide⟩
theorem witness_ByteUnderKeyboardIsIrrelevant : Memory.wf State.reset.mem = true ∧
    ∃ t, step State.reset = .next t := ⟨by decide, _, rfl⟩
theorem witness_ConstructionSetsSpecialRegistersAndLoadsRom :
    ∃ s, construct defaultCfg [0x1C] (fun _ => 1) (fun _ => 2) = .ok s := ⟨_, rfl⟩
theorem defaultCfg_meetsR6 : MeetsR6 defaultCfg ∧ 0 < defaultCfg.ipf :=
  defaultCfg.wf_iff.1 (by decide)
/-- Configurations that break R6 (the keyboard below the IO region, ROM at RAM) or `IPF`, an image one byte too long, and one that just fits. -/
theorem witness_ConstructionChecksAndLaunchInputs :
    ¬ MeetsR6 { defaultCfg with kbdAddr := 0xEF } ∧ ¬ MeetsR6 { defaultCfg with romBase := 0x80 } ∧
    ¬ 0 < (Cfg.ipf { defaultCfg with ipf := 0 }) ∧ MeetsR6 defaultCfg ∧ 0 < defaultCfg.ipf ∧
    defaultCfg.romBase.toNat + (List.replicate 129 (0 : Byte)).length >
      defaultCfg.ramBase.toNat ∧
    defaultCfg.romBase.toNat + (List.replicate 128 (0 : Byte)).length ≤
      defaultCfg.ramBase.toNat := by
  refine ⟨fun h => absurd h.keyboardFromIoBase (by decide),
    fun h => absurd h.romBelowRam (by decide), by decide, defaultCfg_meetsR6.1,
    defaultCfg_meetsR6.2, ?_, ?_⟩ <;> simp [defaultCfg]
theorem witness_StepsKeepTheInvariant : State.reset.Inv ∧ ∃ t, step State.reset = .next t :=
  ⟨⟨by decide, by decide, rfl, by decide, by decide⟩, _, rfl⟩
theorem witness_ReachableStatesAreGood : ∃ s, Reachable s :=
  ⟨_, .constructed (c := defaultCfg) (image := []) (g := fun _ => 0) (m := fun _ => 0) rfl⟩

end Sys2Proof.Tests
end

section
/-! SUPPORT. What construction leaves in the machine (spec 10_state.md R45 to R48), and the statements
about it. -/

namespace Sys2Proof.Machine

/-- Everything construction settles when it answers the machine `s`: the two load checks passed, and
every field of the state. -/
structure ConstructedFrom (c : Cfg) (image : List Byte) (g : Reg → Byte) (m : Byte → Byte)
    (s : State) : Prop where
  cfgWf : c.wf = true
  imageFits : c.romBase.toNat + image.length ≤ c.ramBase.toNat
  cfg : s.cfg = c
  reg : ∀ r, s.reg r = g r
  pc : s.pc = c.romBase
  ir : s.ir = 0
  sp : s.sp = c.stackBase
  flags : s.flags = 0
  run : s.run = .running
  faultInfo : s.faultInfo = none
  mem : s.mem = initialMem c image m
  kbdFifo : s.kbdFifo = []

/-- The one way construction gives a machine. -/
theorem constructedFrom_of_construct {c : Cfg} {image : List Byte} {g : Reg → Byte}
    {m : Byte → Byte} {s : State} (h : construct c image g m = .ok s) :
    ConstructedFrom c image g m s := by
  unfold construct at h
  split at h
  · cases h
  next hwf =>
    split at h
    · cases h
    next hfits =>
      cases h
      exact
        { cfgWf := by simpa using hwf
          imageFits := by simpa [Cfg.imageFits] using hfits
          cfg := rfl
          reg := fun r => by cases r <;> rfl
          pc := rfl
          ir := rfl
          sp := rfl
          flags := rfl
          run := rfl
          faultInfo := rfl
          mem := rfl
          kbdFifo := rfl }

/-- Every bit of a FLAGS byte 0 is 0. -/
@[simp] theorem flagAt_zero (p : Fin 8) : flagAt 0#8 p = false := by simp [flagAt]

/-- Memory after construction is the image at the ROM base and the launch input everywhere else. -/
theorem read_initialMem {c : Cfg} {image : List Byte} (m : Byte → Byte) (a : Byte)
    (h : c.romBase.toNat + image.length ≤ memSize) :
    Memory.read (initialMem c image m) a =
      if c.romBase.toNat ≤ a.toNat ∧ a.toNat < c.romBase.toNat + image.length
      then image.getD (a.toNat - c.romBase.toNat) 0 else m a := by
  rw [Memory.read, initialMem, Memory.readAt_writeList image a.toNat h (Memory.wf_ofFn m),
    ← Memory.read, Memory.read_ofFn]

/-- Byte `k` of the image stands `k` bytes above the ROM base. -/
theorem read_initialMem_image {c : Cfg} {image : List Byte} (m : Byte → Byte) {k : Nat}
    (h : c.romBase.toNat + image.length ≤ memSize) (hk : k < image.length) :
    Memory.read (initialMem c image m) (c.romBase + BitVec.ofNat 8 k) = image[k] := by
  have hlt : c.romBase.toNat + k < 256 := by unfold memSize at h; omega
  have haddr : (c.romBase + BitVec.ofNat 8 k).toNat = c.romBase.toNat + k := by
    rw [BitVec.toNat_add, BitVec.toNat_ofNat]; omega
  rw [read_initialMem m _ h, haddr, if_pos (by omega), Nat.add_sub_cancel_left,
    List.getD_eq_getElem _ _ hk]

namespace ConstructedFrom

variable {c : Cfg} {image : List Byte} {g : Reg → Byte} {m : Byte → Byte} {s : State}

/-- An image that passes the load check ends inside memory. -/
theorem imageInMemory (h : ConstructedFrom c image g m s) :
    c.romBase.toNat + image.length ≤ memSize :=
  h.imageFits.trans c.ramBase.isLt.le

/-- The five flags of a constructed machine are 0, wherever the configuration places them. -/
theorem flagsClear (h : ConstructedFrom c image g m s) :
    s.flagC = false ∧ s.flagS = false ∧ s.flagV = false ∧ s.flagZ = false ∧ s.flagI = false := by
  simp [State.flagC, State.flagS, State.flagV, State.flagZ, State.flagI, h.flags]

/-- The image stands in the memory of a constructed machine from the ROM base up. -/
theorem read_image (h : ConstructedFrom c image g m s) {k : Nat} (hk : k < image.length) :
    Memory.read s.mem (c.romBase + BitVec.ofNat 8 k) = image[k] := by
  rw [h.mem, read_initialMem_image m h.imageInMemory hk]

end ConstructedFrom

/-- Settles O55, by the inversion of construction. The load check keeps every image address below 256,
so no byte of the image wraps round to another's address. -/
theorem constructionSetsSpecialRegistersAndLoadsRom :
    Obligations.ConstructionSetsSpecialRegistersAndLoadsRom := by
  intro c image g m s h
  have hc := constructedFrom_of_construct h
  exact ⟨hc.sp, hc.pc, hc.ir, hc.flags, hc.flagsClear, fun _ hk => hc.read_image hk⟩

end Sys2Proof.Machine
end

section
/-! SUPPORT. The dispatcher's two transactions have the effects R60 and R61 state. -/

namespace Sys2Proof.Machine

/-- A read at `KBD_ADDR` is the device's. -/
theorem State.memRead_kbd (s : State) : s.memRead s.cfg.kbdAddr = s.kbdRead := by
  simp [State.memRead, deviceAt_kbd]

/-- R60: what `memRead` gives and leaves is the read transaction of that address. -/
theorem State.memRead_readEffect (s : State) (a : Byte) :
    ReadEffect s (s.memRead a).2 a (s.memRead a).1 := by
  refine ⟨fun ha hq => ?_, fun ha c rest hq => ?_, fun ha => ?_, fun x => by rw [s.memRead_mem]⟩
  · rw [ha, s.memRead_kbd]
    simp [State.kbdRead, hq]
  · rw [ha, s.memRead_kbd]
    simp [State.kbdRead, hq]
  · rw [s.memRead_plain ha]
    exact ⟨rfl, rfl⟩

/-- R61: from a canonical memory, what `memWrite` leaves is the write transaction of that address. -/
theorem State.memWrite_writeEffect {s : State} (hm : Memory.wf s.mem = true) (a v : Byte) :
    WriteEffect s (s.memWrite a v) a v := by
  refine ⟨fun ha => ?_, fun ha => ?_⟩
  · rw [ha, s.memWrite_kbd]
    exact ⟨rfl, fun _ => rfl⟩
  · rw [s.memWrite_mem v ha]
    exact ⟨rfl, Memory.read_write_same a v hm, fun _ hx => Memory.read_write_ne s.mem v hx⟩

/-- A read changes at most the keyboard queue. -/
theorem State.memRead_frame (s : State) (a : Byte) :
    (s.memRead a).2 = { s with kbdFifo := (s.memRead a).2.kbdFifo } := by
  obtain ⟨q, e, _⟩ := s.memRead_state a
  rw [e]
  rfl

/-- A write changes at most MEM and the keyboard queue. -/
theorem State.memWrite_frame (s : State) (a v : Byte) :
    s.memWrite a v =
      { s with mem := (s.memWrite a v).mem, kbdFifo := (s.memWrite a v).kbdFifo } := by
  rcases s.memWrite_cases a v with ⟨_, e⟩ | ⟨_, e⟩
  · rw [e]
    rfl
  · rw [e]
    rfl

/-- Settles O46, by the effect and the frame of each of the two transactions. -/
theorem dispatcherRoutesAccesses : Obligations.DispatcherRoutesAccesses := fun s a v hm =>
  ⟨s.memRead_readEffect a, s.memRead_frame a, State.memWrite_writeEffect hm a v,
    s.memWrite_frame a v⟩

end Sys2Proof.Machine
end

section
/-! SUPPORT. Machine code and the register-byte check of every mnemonic, both ways, and what a step
does with the bytes it has read (spec 30_encoding.md R81 to R97; 10_state.md R40). -/

namespace Sys2Proof

/-! ## Operand bytes that are legal, and operand bytes that are not -/

/-- `r` is what a decoder owes operand bytes `bs` of shapes `shs`: the first register byte above 7
as the error if there is one, else an instruction that meets `P`. -/
def OperandsChecked (shs : List Shape) (bs : List Byte) (r : Except Byte Instr)
    (P : Instr → Prop) : Prop :=
  (∃ b, firstIllegal shs bs = some b ∧ r = .error b) ∨
  (firstIllegal shs bs = none ∧ ∃ i, r = .ok i ∧ P i)

namespace OperandsChecked

variable {sh : Shape} {shs : List Shape} {b : Byte} {bs : List Byte} {P : Instr → Prop}

theorem nil {i : Instr} (h : P i) : OperandsChecked [] bs (.ok i) P := .inr ⟨rfl, i, rfl, h⟩

/-- A legal byte in front leaves the check to the bytes behind it. -/
theorem cons_legal {r : Except Byte Instr} (hb : sh.legal b = true)
    (h : OperandsChecked shs bs r P) : OperandsChecked (sh :: shs) (b :: bs) r P := by
  simpa [OperandsChecked, firstIllegal, hb] using h

/-- A register byte in front is either rejected there and then, or it is the byte of a register. -/
theorem cons_register {f : Reg → Except Byte Instr} (hsh : sh.legal b = decide (b.toNat < numGpr))
    (h : ∀ r : Reg, r.toByte = b → OperandsChecked shs bs (f r) P) :
    OperandsChecked (sh :: shs) (b :: bs) (Reg.ofByte b >>= f) P := by
  rcases Reg.ofByte_cases b with ⟨hlt, r, hr, hrb⟩ | ⟨hge, hr⟩
  · rw [hr]
    exact cons_legal (hsh.trans (decide_eq_true hlt)) (h r hrb)
  · refine .inl ⟨b, ?_, by rw [hr]; rfl⟩
    simp [firstIllegal, hsh, numGpr, hge]

end OperandsChecked

/-! One lemma per operand format (R83): if the mnemonic and the operand bytes of `k`'s instructions
are as the format says, so are those of what the format's decoder answers. -/

section
variable {o : Op} {b1 b2 b3 : Byte}

theorem decodeDSS_checked {k : Reg → Reg → Reg → Instr}
    (hk : ∀ d a b, (k d a b).op = o ∧ (k d a b).operandBytes = [d.toByte, a.toByte, b.toByte]) :
    OperandsChecked [.registerDest, .registerSrc, .registerSrc] [b1, b2, b3]
      (decodeDSS k b1 b2 b3) fun i => i.op = o ∧ i.operandBytes = [b1, b2, b3] := by
  refine .cons_register rfl fun d hd => .cons_register rfl fun a ha =>
    .cons_register rfl fun b hb => .nil ?_
  subst hd ha hb
  exact hk d a b

theorem decodeDS_checked {k : Reg → Reg → Instr}
    (hk : ∀ d a, (k d a).op = o ∧ (k d a).operandBytes = [d.toByte, a.toByte]) :
    OperandsChecked [.registerDest, .registerSrc] [b1, b2]
      (decodeDS k b1 b2) fun i => i.op = o ∧ i.operandBytes = [b1, b2] := by
  refine .cons_register rfl fun d hd => .cons_register rfl fun a ha => .nil ?_
  subst hd ha
  exact hk d a

theorem decodeDB_checked {sh : Shape} {k : Reg → Byte → Instr} (hsh : sh.legal b2 = true)
    (hk : ∀ d v, (k d v).op = o ∧ (k d v).operandBytes = [d.toByte, v]) :
    OperandsChecked [.registerDest, sh] [b1, b2]
      (decodeDB k b1 b2) fun i => i.op = o ∧ i.operandBytes = [b1, b2] := by
  refine .cons_register rfl fun d hd => .cons_legal hsh (.nil ?_)
  subst hd
  exact hk d b2

theorem decodeAS_checked {k : Byte → Reg → Instr}
    (hk : ∀ v a, (k v a).op = o ∧ (k v a).operandBytes = [v, a.toByte]) :
    OperandsChecked [.address, .registerSrc] [b1, b2]
      (decodeAS k b1 b2) fun i => i.op = o ∧ i.operandBytes = [b1, b2] := by
  refine .cons_legal rfl (.cons_register rfl fun a ha => .nil ?_)
  subst ha
  exact hk b1 a

theorem decodeR_checked {sh : Shape} {k : Reg → Instr}
    (hsh : sh.legal b1 = decide (b1.toNat < numGpr))
    (hk : ∀ r, (k r).op = o ∧ (k r).operandBytes = [r.toByte]) :
    OperandsChecked [sh] [b1] (decodeR k b1) fun i => i.op = o ∧ i.operandBytes = [b1] := by
  refine .cons_register hsh fun r hr => .nil ?_
  subst hr
  exact hk r

theorem decodeSSO_checked {k : Reg → Reg → Byte → Instr}
    (hk : ∀ a b v, (k a b v).op = o ∧ (k a b v).operandBytes = [a.toByte, b.toByte, v]) :
    OperandsChecked [.registerSrc, .registerSrc, .offset] [b1, b2, b3]
      (decodeSSO k b1 b2 b3) fun i => i.op = o ∧ i.operandBytes = [b1, b2, b3] := by
  refine .cons_register rfl fun a ha => .cons_register rfl fun b hb => .cons_legal rfl (.nil ?_)
  subst ha hb
  exact hk a b b3

end

/-- As many operand bytes as the mnemonic has are rejected with the first register byte above 7, and
otherwise decode to the instruction made of exactly these bytes. -/
theorem decodeOperands_checked (o : Op) {bs : List Byte} (h : bs.length = o.shapes.length) :
    OperandsChecked o.shapes bs (decodeOperands o (bs.getD 0 0) (bs.getD 1 0) (bs.getD 2 0))
      fun i => i.op = o ∧ i.operandBytes = bs := by
  cases o with
  | nop | ret | hlt =>
    obtain rfl := List.eq_nil_of_length_eq_zero h
    exact .nil ⟨rfl, rfl⟩
  | add | sub | mul | div | and | or | xor | shl | shr =>
    obtain ⟨b1, b2, b3, rfl⟩ := List.length_eq_three.1 h
    exact decodeDSS_checked fun _ _ _ => ⟨rfl, rfl⟩
  | not | jalr | mov =>
    obtain ⟨b1, b2, rfl⟩ := List.length_eq_two.1 h
    exact decodeDS_checked fun _ _ => ⟨rfl, rfl⟩
  | jal | ldr | inp | ldi =>
    obtain ⟨b1, b2, rfl⟩ := List.length_eq_two.1 h
    exact decodeDB_checked rfl fun _ _ => ⟨rfl, rfl⟩
  | str | out =>
    obtain ⟨b1, b2, rfl⟩ := List.length_eq_two.1 h
    exact decodeAS_checked fun _ _ => ⟨rfl, rfl⟩
  | push | pop =>
    obtain ⟨b1, rfl⟩ := List.length_eq_one_iff.1 h
    exact decodeR_checked rfl fun _ => ⟨rfl, rfl⟩
  | beq | bne | blt | bge | ble | bgt =>
    obtain ⟨b1, b2, b3, rfl⟩ := List.length_eq_three.1 h
    exact decodeSSO_checked fun _ _ _ => ⟨rfl, rfl⟩

/-! ## The round trip from an instruction -/

theorem decodeDSS_toByte (k : Reg → Reg → Reg → Instr) (d a b : Reg) :
    decodeDSS k d.toByte a.toByte b.toByte = .ok (k d a b) := by
  simp only [decodeDSS, Reg.ofByte_toByte]
  rfl

theorem decodeDS_toByte (k : Reg → Reg → Instr) (d a : Reg) :
    decodeDS k d.toByte a.toByte = .ok (k d a) := by
  simp only [decodeDS, Reg.ofByte_toByte]
  rfl

theorem decodeDB_toByte (k : Reg → Byte → Instr) (d : Reg) (v : Byte) :
    decodeDB k d.toByte v = .ok (k d v) := by
  simp only [decodeDB, Reg.ofByte_toByte]
  rfl

theorem decodeAS_toByte (k : Byte → Reg → Instr) (v : Byte) (a : Reg) :
    decodeAS k v a.toByte = .ok (k v a) := by
  simp only [decodeAS, Reg.ofByte_toByte]
  rfl

theorem decodeR_toByte (k : Reg → Instr) (r : Reg) : decodeR k r.toByte = .ok (k r) := by
  simp only [decodeR, Reg.ofByte_toByte]
  rfl

theorem decodeSSO_toByte (k : Reg → Reg → Byte → Instr) (a b : Reg) (v : Byte) :
    decodeSSO k a.toByte b.toByte v = .ok (k a b v) := by
  simp only [decodeSSO, Reg.ofByte_toByte]
  rfl

/-- The operand bytes of an instruction decode to it, whatever bytes follow. -/
theorem decodeOperands_operandBytes (i : Instr) (rest : List Byte) :
    decodeOperands i.op ((i.operandBytes ++ rest).getD 0 0) ((i.operandBytes ++ rest).getD 1 0)
      ((i.operandBytes ++ rest).getD 2 0) = .ok i := by
  cases i with
  | nop | ret | hlt => rfl
  | add d a b | sub d a b | mul d a b | div d a b | and d a b | or d a b | xor d a b | shl d a b
  | shr d a b => exact decodeDSS_toByte _ d a b
  | not d a | jalr d a | mov d a => exact decodeDS_toByte _ d a
  | jal d v | ldr d v | inp d v | ldi d v => exact decodeDB_toByte _ d v
  | str v a | out v a => exact decodeAS_toByte _ v a
  | push r | pop r => exact decodeR_toByte _ r
  | beq a b v | bne a b v | blt a b v | bge a b v | ble a b v | bgt a b v =>
    exact decodeSSO_toByte _ a b v

/-- With pairwise different opcodes the decoder reads an instruction back from its machine code and
leaves the bytes that follow. -/
theorem decode_encode_append {m : OpcodeMap} (h : m.wf = true) (i : Instr) (rest : List Byte) :
    decode m (encode m i ++ rest) = .ok (i, rest) := by
  have hlen : ¬ (i.operandBytes ++ rest).length < i.op.shapes.length := by
    rw [List.length_append, i.operandBytes_length]
    omega
  simp only [encode, List.cons_append, decode, m.lookup_byteOf h, if_neg hlen,
    decodeOperands_operandBytes]
  rw [← i.operandBytes_length, List.drop_left]

end Sys2Proof

namespace Sys2Proof.Machine

/-! ## What a step does with the bytes it has read -/

theorem State.readBytes_length (n : Nat) (a : Byte) (s : State) :
    (s.readBytes n a).1.length = n := by
  induction n generalizing a s with
  | zero => rfl
  | succ n ih => exact congrArg (· + 1) (ih (a + 1) (s.memRead a).2)

theorem State.readBytes_pc (n : Nat) (a : Byte) (s : State) : (s.readBytes n a).2.pc = s.pc := by
  obtain ⟨q, e, _⟩ := s.readBytes_state n a
  rw [e]
  rfl

section
variable {s s1 s2 : State} {op : Byte} {o : Op} {bs : List Byte}
  (hop : s.memRead s.pc = (op, s1)) (ho : s.cfg.opcodes.lookup op = some o)
  (hbs : s1.readBytes o.shapes.length (s.pc + 1) = (bs, s2))
include hop ho hbs

/-- The fetch of bytes that decode ends in the instruction. -/
theorem State.fetch_eq_ok {i : Instr}
    (h : decodeOperands o (bs.getD 0 0) (bs.getD 1 0) (bs.getD 2 0) = .ok i) :
    s.fetch = (.ok i, s2) := by
  simp only [State.fetch, hop, ho, hbs, h]

/-- The fetch of bytes that do not decode ends in the fault of the register byte. -/
theorem State.fetch_eq_error {b : Byte}
    (h : decodeOperands o (bs.getD 0 0) (bs.getD 1 0) (bs.getD 2 0) = .error b) :
    s.fetch = (.error (.illegalRegister, b), s2) := by
  simp only [State.fetch, hop, ho, hbs, h]

end

/-- R40 steps 5 and 6 hold of every mnemonic: the bytes read are checked as its shapes say. -/
theorem faultsOnRegisterBytesOnly (o : Op) : FaultsOnRegisterBytesOnly o := by
  intro s s1 s2 op bs hrun hop ho hbs
  have hlen : bs.length = o.shapes.length := by
    rw [← s1.readBytes_length o.shapes.length (s.pc + 1), hbs]
  have hpc : s2.pc = s.pc := by
    have h1 : s1.pc = s.pc := by rw [← s.memRead_pc s.pc, hop]
    rw [← h1, ← s1.readBytes_pc o.shapes.length (s.pc + 1), hbs]
  rcases decodeOperands_checked o hlen with ⟨b, hb, hd⟩ | ⟨hb, i, hd, hio, hib⟩
  · simp only [hb, step_running hrun, State.fetch_eq_error hop ho hbs hd, State.raise, hpc]
  · simp only [hb, step_running hrun, State.fetch_eq_ok hop ho hbs hd]
    refine ⟨i, hio, ?_, rfl⟩
    rw [encode, hio, hib, OpcodeMap.byteOf_of_lookup ho]

/-- Every instruction is encoded as its opcode byte and its operand bytes. -/
theorem encodedAs {m : OpcodeMap} (h : m.wf = true) (i : Instr) :
    EncodedAs m i (defaultOpcodes.byteOf i.op) (encode m i) := by
  refine ⟨rfl, rfl, ?_, faultsOnRegisterBytesOnly i.op⟩
  simpa using decode_encode_append h i []

end Sys2Proof.Machine
end

section
/-! SUPPORT. The common effect of ADD, SUB and MUL in the plain numbers of the spec
(40_arithmetic.md R121 to R124), and the statement about ADD. -/

namespace Sys2Proof.Machine

/-! ## Numbers -/

/-- Two's complement as R12 defines it. -/
theorem toInt_eq_s8 (v : Byte) : v.toInt = s8 v := by
  rw [BitVec.toInt_eq_toNat_cond, s8]
  split <;> split <;> omega

theorem toNat_truncate (raw : Int) : ((truncate raw).toNat : Int) = raw % 256 := by
  rw [truncate, BitVec.toNat_ofInt]
  omega

theorem carryOf_iff (raw : Int) : carryOf raw = true ↔ raw < 0 ∨ 255 < raw := by simp [carryOf]

theorem overflowOf_iff (raw : Int) : overflowOf raw = true ↔ raw < -128 ∨ 127 < raw := by
  simp [overflowOf]

/-! ## What `State.arith` sets and what it keeps -/

theorem meetsR6_of_wf {c : Cfg} (h : c.wf = true) : MeetsR6 c := (c.wf_iff.1 h).1

section
variable (s : State) (d : Reg) (raw : Int) (ovf : Bool)

@[simp] theorem State.arith_cfg : (s.arith d raw ovf).cfg = s.cfg := rfl

@[simp] theorem State.arith_pc : (s.arith d raw ovf).pc = s.pc + 4 := rfl

theorem State.arith_keepsOtherFlags : KeepsOtherFlags s (s.arith d raw ovf) := by
  intro p hc hs hv
  rw [State.arith_flags, if_neg hv, if_neg hs, if_neg hc]

theorem State.arith_keepsAllButRegAndFlags : KeepsAllButRegAndFlags s (s.arith d raw ovf) d :=
  ⟨fun _ hr => s.arith_reg_ne raw ovf hr, rfl, ⟨fun _ => rfl, rfl⟩, rfl, rfl, rfl, rfl⟩

theorem State.arith_flagV : (s.arith d raw ovf).flagV = ovf := by
  simp [State.flagV, State.arith_flags]

variable {s} (h : MeetsR6 s.cfg)
include h

/-- S survives the later write of V, whose bit is another. -/
theorem State.arith_flagS : (s.arith d raw ovf).flagS = signOf (truncate raw) := by
  obtain ⟨-, -, -, -, -, -, -, hsv, -, -⟩ := h.flagBitsDiffer
  simp [State.flagS, State.arith_flags, hsv]

/-- C survives the later writes of S and V, whose bits are others. -/
theorem State.arith_flagC : (s.arith d raw ovf).flagC = carryOf raw := by
  obtain ⟨-, -, -, -, hcs, hcv, -, -, -, -⟩ := h.flagBitsDiffer
  simp [State.flagC, State.arith_flags, hcs, hcv]

end

/-- Settles O1, from the encoding of every instruction and the common effect of the arithmetic
instructions: the raw sum of two bytes is never negative, so a carry is a sum above 255. -/
theorem addInstruction : Obligations.AddInstruction := by
  intro s d s1 s2 hwf
  have hR6 := meetsR6_of_wf hwf
  refine ⟨encodedAs (s.cfg.opcodes.wf_iff.2 hR6.opcodesDiffer) (.add d s1 s2), _,
    exec_add s d s1 s2, ?result, ?carry, ?sign, ?overflow, s.arith_pc ..,
    s.arith_keepsOtherFlags _ _ _, s.arith_keepsAllButRegAndFlags _ _ _⟩
  case result =>
    rw [State.arith_reg]
    have := toNat_truncate ((s.reg s1).toNat + (s.reg s2).toNat)
    omega
  case carry =>
    rw [State.arith_flagC _ _ _ hR6, carryOf_iff]
    omega
  case sign => rw [State.arith_flagS _ _ _ hR6, State.arith_reg, signOf]
  case overflow => rw [State.arith_flagV, overflowOf_iff, toInt_eq_s8, toInt_eq_s8]

end Sys2Proof.Machine
end

section
/-! SUPPORT. What the link and the jump of JAL and JALR do and keep (spec 42_call_return.md R160 to
R163), and the statements about JAL and RET. -/

namespace Sys2Proof.Machine

/-- Under a legal configuration every instruction is encoded as its opcode byte and its operand
bytes. -/
theorem encodedAs_of_cfg_wf {c : Cfg} (h : c.wf = true) (i : Instr) :
    EncodedAs c.opcodes i (defaultOpcodes.byteOf i.op) (encode c.opcodes i) :=
  encodedAs (c.opcodes.wf_iff.2 (meetsR6_of_wf h).opcodesDiffer) i

/-! ## The link and the jump -/

section
variable (s : State) (d : Reg) (target : Byte)

/-- The link is written at the old SP: the write of rdest before it and those of SP and PC after it
touch neither MEM nor the keyboard queue. -/
theorem State.linkAndJump_writeEffect (hm : Memory.wf s.mem = true) :
    WriteEffect s (s.linkAndJump d target) s.sp (s.pc + 3) :=
  State.memWrite_writeEffect (s := s.setReg d s.link) hm s.sp s.link

theorem State.linkAndJump_keepsRegsBut : KeepsRegsBut s (s.linkAndJump d target) d := fun r hr => by
  simp [State.linkAndJump, State.reg_setReg_ne _ _ hr]

theorem State.linkAndJump_flags : (s.linkAndJump d target).flags = s.flags := by
  simp [State.linkAndJump]

theorem State.linkAndJump_keepsControl : KeepsControl s (s.linkAndJump d target) := by
  simp [KeepsControl, State.linkAndJump]

end

/-- Settles O12, from the encoding of every instruction and what the link and the jump do and
keep. -/
theorem jalInstruction : Obligations.JalInstruction := by
  intro s d addr hwf hm
  obtain ⟨hlink, hsp, hpc⟩ := s.linkAndJump_spec d addr
  exact ⟨encodedAs_of_cfg_wf hwf (.jal d addr), _, exec_jal s d addr, hlink,
    s.linkAndJump_writeEffect d addr hm, hsp, hpc, s.linkAndJump_keepsRegsBut d addr,
    s.linkAndJump_flags d addr, s.linkAndJump_keepsControl d addr⟩

/-! ## Return -/

/-- A read through the dispatcher keeps IR, RUN, FAULT_INFO and the configuration. -/
theorem State.memRead_keepsControl (s : State) (a : Byte) : KeepsControl s (s.memRead a).2 :=
  ⟨s.memRead_ir a, s.memRead_run a, s.memRead_faultInfo a, s.memRead_cfg a⟩

/-- Settles O14, from the read transaction at the old SP: the writes of SP and PC after it touch
nothing else. -/
theorem retInstruction : Obligations.RetInstruction := by
  intro s hwf
  exact ⟨encodedAs_of_cfg_wf hwf .ret, _, exec_ret s, s.memRead_readEffect s.sp, rfl,
    s.memRead_reg s.sp, s.memRead_flags s.sp, s.memRead_keepsControl s.sp⟩

end Sys2Proof.Machine
end

section
/-! SUPPORT. The statements about PUSH and POP: one dispatcher transaction each, at the old SP and at
the new one (spec 43_stack.md R176, R178). -/

namespace Sys2Proof.Machine

/-- A write through the dispatcher keeps IR, RUN, FAULT_INFO and the configuration. -/
theorem State.memWrite_keepsControl (s : State) (a v : Byte) : KeepsControl s (s.memWrite a v) :=
  ⟨s.memWrite_ir a v, s.memWrite_run a v, s.memWrite_faultInfo a v, s.memWrite_cfg a v⟩

/-- Settles O15, from the write transaction at the old SP: the writes of SP and PC after it touch
nothing else. -/
theorem pushInstruction : Obligations.PushInstruction := by
  intro s r hwf hm
  refine ⟨encodedAs_of_cfg_wf hwf (.push r), _, exec_push s r, ?store, rfl, ?pc,
    s.memWrite_reg s.sp (s.reg r), s.memWrite_flags s.sp (s.reg r),
    s.memWrite_keepsControl s.sp (s.reg r)⟩
  case store => exact State.memWrite_writeEffect hm s.sp (s.reg r)
  case pc => simp

/-- Settles O16, from the read transaction at the new SP: the register takes the byte the read gives,
and the writes of SP, the register and PC after it touch neither MEM nor the keyboard queue. -/
theorem popInstruction : Obligations.PopInstruction := by
  intro s d hwf
  refine ⟨encodedAs_of_cfg_wf hwf (.pop d), _, exec_pop s d, rfl, ?load, ?pc, ?otherRegs,
    s.memRead_flags (s.sp + 1), s.memRead_keepsControl (s.sp + 1)⟩
  case load =>
    rw [State.advance_reg, State.reg_setReg_same]
    exact s.memRead_readEffect (s.sp + 1)
  case pc => simp
  case otherRegs =>
    intro r hr
    rw [State.advance_reg, State.reg_setReg_ne _ _ hr, State.setSp_reg, State.memRead_reg]

end Sys2Proof.Machine
end

section
/-! SUPPORT. The common effect of the branches in the plain numbers of the spec (44_branch.md R185,
R186), and the statements about the six of them. -/

namespace Sys2Proof.Machine

/-- The target in R185's own arithmetic. -/
theorem toNat_branchTarget (a off : Byte) :
    ((branchTarget a off).toNat : Int) = ((a.toNat : Int) + 3 + s8 off) % 256 := by
  rw [← toInt_eq_s8]
  exact toNat_truncate _

/-- A branch keeps everything but PC, taken or not. -/
theorem State.branchIf_keepsAllButPc (s : State) (taken : Bool) (off : Byte) :
    KeepsAllButPc s (s.branchIf taken off) := by
  obtain ⟨p, hp⟩ := s.branchIf_setPc taken off
  rw [hp]
  exact ⟨s.setPc_reg p, s.setPc_sp p, s.setPc_flags p, ⟨fun _ => rfl, rfl⟩, s.setPc_ir p,
    s.setPc_run p, s.setPc_faultInfo p, s.setPc_cfg p⟩

/-- R185 holds of an instruction with a branch's machine code and effect, for the condition its Boolean
test decides. -/
theorem branchLaw_of_exec {s : State} {i : Instr} {opcode : Byte} {s1 s2 : Reg} {off : Byte}
    {taken : Bool} {cond : Prop} (hwf : s.cfg.wf = true)
    (hbytes : encode s.cfg.opcodes i = [opcode, s1.toByte, s2.toByte, off])
    (hexec : exec i s = .next (s.branchIf taken off)) (htaken : taken = true ↔ cond) :
    BranchLaw s i (defaultOpcodes.byteOf i.op) opcode s1 s2 off cond := by
  refine ⟨hbytes ▸ encodedAs_of_cfg_wf hwf i, _, hexec, fun hc => ?target, fun hc => ?fallThrough,
    s.branchIf_keepsAllButPc taken off⟩
  case target =>
    rw [State.branchIf, if_pos (htaken.2 hc)]
    exact toNat_branchTarget s.pc off
  case fallThrough =>
    rw [State.branchIf, if_neg (mt htaken.1 hc)]
    exact s.advance_pc 4

/-- Settles O19, from the law of all branches: the registers are equal as bytes exactly when they are
as numbers. -/
theorem equalityBranches : Obligations.EqualityBranches := fun s s1 s2 off hwf =>
  have hnum : s.reg s1 = s.reg s2 ↔ (s.reg s1).toNat = (s.reg s2).toNat := BitVec.toNat_inj.symm
  ⟨branchLaw_of_exec hwf rfl (exec_beq s s1 s2 off) (decide_eq_true_iff.trans hnum),
    branchLaw_of_exec hwf rfl (exec_bne s s1 s2 off) (decide_eq_true_iff.trans (not_congr hnum))⟩

/-- Settles O20, from the law of all branches: each tests its relation on the bytes as natural numbers,
which is the unsigned one. -/
theorem unsignedOrderBranches : Obligations.UnsignedOrderBranches := fun s s1 s2 off hwf =>
  ⟨branchLaw_of_exec hwf rfl (exec_blt s s1 s2 off) decide_eq_true_iff,
    branchLaw_of_exec hwf rfl (exec_bge s s1 s2 off) decide_eq_true_iff,
    branchLaw_of_exec hwf rfl (exec_ble s s1 s2 off) decide_eq_true_iff,
    branchLaw_of_exec hwf rfl (exec_bgt s s1 s2 off) decide_eq_true_iff⟩

end Sys2Proof.Machine
end

section
/-! SUPPORT. What the load that LDR and IN share, the store that STR and OUT share, and a result
without flags do and keep (spec 45_load_store_move.md R201 to R204; 41_logic_shift.md R141), and the
statements about LDR, STR, LDI and MOV. -/

namespace Sys2Proof.Machine

/-! ## The load and the store -/

section
variable (s : State) (d : Reg) (addr : Byte) (r : Reg)

/-- The register takes the byte the read gives: the writes of the register and PC after it touch
neither MEM nor the keyboard queue. -/
theorem State.loadFrom_readEffect :
    ReadEffect s (s.loadFrom d addr) addr ((s.loadFrom d addr).reg d) := by
  have hreg : (s.loadFrom d addr).reg d = (s.memRead addr).1 := by simp [State.loadFrom]
  rw [hreg]
  exact s.memRead_readEffect addr

theorem State.loadFrom_pc : (s.loadFrom d addr).pc = s.pc + 3 := by simp [State.loadFrom]

theorem State.loadFrom_keepsRegsBut : KeepsRegsBut s (s.loadFrom d addr) d := fun r hr => by
  simp [State.loadFrom, State.reg_setReg_ne _ _ hr]

theorem State.loadFrom_sp : (s.loadFrom d addr).sp = s.sp := s.memRead_sp addr

theorem State.loadFrom_flags : (s.loadFrom d addr).flags = s.flags := s.memRead_flags addr

theorem State.loadFrom_keepsControl : KeepsControl s (s.loadFrom d addr) :=
  s.memRead_keepsControl addr

/-- The write of PC after the store touches neither MEM nor the keyboard queue. -/
theorem State.storeTo_writeEffect (hm : Memory.wf s.mem = true) :
    WriteEffect s (s.storeTo addr r) addr (s.reg r) :=
  State.memWrite_writeEffect hm addr (s.reg r)

theorem State.storeTo_pc : (s.storeTo addr r).pc = s.pc + 3 := by simp [State.storeTo]

theorem State.storeTo_keepsRegs : KeepsRegs s (s.storeTo addr r) := s.memWrite_reg addr (s.reg r)

theorem State.storeTo_sp : (s.storeTo addr r).sp = s.sp := s.memWrite_sp addr (s.reg r)

theorem State.storeTo_flags : (s.storeTo addr r).flags = s.flags := s.memWrite_flags addr (s.reg r)

theorem State.storeTo_keepsControl : KeepsControl s (s.storeTo addr r) :=
  s.memWrite_keepsControl addr (s.reg r)

end

/-- Settles O22, from the encoding of every instruction and what the load does and keeps. -/
theorem ldrInstruction : Obligations.LdrInstruction := fun s d addr hwf =>
  ⟨encodedAs_of_cfg_wf hwf (.ldr d addr), _, exec_ldr s d addr, s.loadFrom_readEffect d addr,
    s.loadFrom_pc d addr, s.loadFrom_keepsRegsBut d addr, s.loadFrom_sp d addr,
    s.loadFrom_flags d addr, s.loadFrom_keepsControl d addr⟩

/-- Settles O23, from the encoding of every instruction and what the store does and keeps. -/
theorem strInstruction : Obligations.StrInstruction := fun s addr r hwf hm =>
  ⟨encodedAs_of_cfg_wf hwf (.str addr r), _, exec_str s r addr, s.storeTo_writeEffect addr r hm,
    s.storeTo_pc addr r, s.storeTo_keepsRegs addr r, s.storeTo_sp addr r, s.storeTo_flags addr r,
    s.storeTo_keepsControl addr r⟩

/-! ## A result without flags -/

section
variable (s : State) (d : Reg) (v : Byte) (len : Nat)

@[simp] theorem State.result_reg : (s.result d v len).reg d = v := by simp [State.result]

@[simp] theorem State.result_pc : (s.result d v len).pc = s.pc + BitVec.ofNat 8 len := by
  simp [State.result]

theorem State.result_keepsAllButReg : KeepsAllButReg s (s.result d v len) d := by
  have hregs : KeepsRegsBut s (s.result d v len) d := fun r hr => by
    simp [State.result, State.reg_setReg_ne _ _ hr]
  exact ⟨⟨hregs, rfl, ⟨fun _ => rfl, rfl⟩, rfl, rfl, rfl, rfl⟩, rfl⟩

end

/-- Settles O26: LDI and MOV are both a result without flags, of the immediate byte and of the source
register. -/
theorem ldiAndMovInstructions : Obligations.LdiAndMovInstructions := fun s d r imm hwf =>
  ⟨⟨encodedAs_of_cfg_wf hwf (.ldi d imm), s.result d imm 3, exec_ldi s d imm,
      s.result_reg d imm 3, s.result_pc d imm 3, s.result_keepsAllButReg d imm 3⟩,
    encodedAs_of_cfg_wf hwf (.mov d r), s.result d (s.reg r) 3, exec_mov s d r,
      s.result_reg d (s.reg r) 3, s.result_pc d (s.reg r) 3,
      s.result_keepsAllButReg d (s.reg r) 3⟩

end Sys2Proof.Machine
end

section
/-! SUPPORT. IN is LDR and OUT is STR in every effect (spec 46_io.md R215), and the statements about IN
and OUT. -/

namespace Sys2Proof.Machine

theorem exec_inp_eq_exec_ldr (d : Reg) (addr : Byte) (s : State) :
    exec (.inp d addr) s = exec (.ldr d addr) s :=
  (exec_inp s d addr).trans (exec_ldr s d addr).symm

theorem exec_out_eq_exec_str (addr : Byte) (r : Reg) (s : State) :
    exec (.out addr r) s = exec (.str addr r) s :=
  (exec_out s r addr).trans (exec_str s r addr).symm

/-- Settles O24, from the encoding of every instruction and the effect of LDR. -/
theorem inInstruction : Obligations.InInstruction := by
  intro s d addr hwf
  obtain ⟨-, heffect⟩ := ldrInstruction s d addr hwf
  rw [← exec_inp_eq_exec_ldr] at heffect
  exact ⟨encodedAs_of_cfg_wf hwf (.inp d addr), heffect⟩

/-- Settles O25, from the encoding of every instruction and the effect of STR. -/
theorem outInstruction : Obligations.OutInstruction := by
  intro s addr r hwf hm
  obtain ⟨-, heffect⟩ := strInstruction s addr r hwf hm
  rw [← exec_out_eq_exec_str] at heffect
  exact ⟨encodedAs_of_cfg_wf hwf (.out addr r), heffect⟩

end Sys2Proof.Machine
end

section
/-! SUPPORT. Moving past a one-byte instruction, and the statement about NOP (spec 47_system.md
R226). -/

namespace Sys2Proof.Machine

/-- Advancing past a one-byte instruction writes PC and no other field. -/
theorem State.advance_one (s : State) : s.advance 1 = { s with pc := s.pc + 1 } := rfl

/-- Settles O29, from the encoding of every instruction: all NOP does is move past its one byte. -/
theorem nopInstruction : Obligations.NopInstruction := fun s hwf =>
  have hexec : exec .nop s = .next { s with pc := s.pc + 1 } :=
    (exec_nop s).trans (congrArg _ s.advance_one)
  ⟨encodedAs_of_cfg_wf hwf .nop, hexec⟩

end Sys2Proof.Machine
end

section
/-! SUPPORT. FLAGS steer nothing: every operation on a state with other FLAGS does the same to the rest
of it; and only C, S and V are ever written (spec 70_reset_and_hazards.md R297;
10_state.md R32). -/

namespace Sys2Proof.Machine

/-! ## The operations do not read FLAGS -/

theorem State.kbdRead_setFlags (s : State) (f : Byte) :
    (s.setFlags f).kbdRead = (s.kbdRead.1, s.kbdRead.2.setFlags f) := by
  unfold State.kbdRead
  rw [State.setFlags_kbdFifo]
  split <;> rfl

theorem State.memRead_setFlags (s : State) (a f : Byte) :
    (s.setFlags f).memRead a = ((s.memRead a).1, (s.memRead a).2.setFlags f) := by
  by_cases ha : a = s.cfg.kbdAddr
  · subst ha
    rw [s.memRead_kbd, ← s.kbdRead_setFlags f]
    exact (s.setFlags f).memRead_kbd
  · rw [s.memRead_plain ha]
    exact (s.setFlags f).memRead_plain ha

theorem State.memWrite_setFlags (s : State) (a v f : Byte) :
    (s.setFlags f).memWrite a v = (s.memWrite a v).setFlags f := by
  rcases s.memWrite_cases a v with ⟨ha, e⟩ | ⟨ha, e⟩
  · rw [e, ha]
    exact (s.setFlags f).memWrite_kbd v
  · rw [e]
    exact (s.setFlags f).memWrite_mem v ha

theorem State.readBytes_setFlags (n : Nat) (a f : Byte) (s : State) :
    (s.setFlags f).readBytes n a = ((s.readBytes n a).1, (s.readBytes n a).2.setFlags f) := by
  induction n generalizing a s with
  | zero => rfl
  | succ n ih => simp only [State.readBytes, State.memRead_setFlags, ih]

/-- A fetch finds the same instruction or fault whatever FLAGS hold. -/
theorem State.fetch_setFlags (s : State) (f : Byte) :
    (s.setFlags f).fetch = (s.fetch.1, s.fetch.2.setFlags f) := by
  simp only [State.fetch, State.setFlags_pc, State.setFlags_cfg, State.memRead_setFlags]
  split
  · rfl
  · simp only [State.readBytes_setFlags]
    split <;> rfl

theorem State.branchIf_setFlags (s : State) (taken : Bool) (off f : Byte) :
    (s.setFlags f).branchIf taken off = (s.branchIf taken off).setFlags f := by
  cases taken with
  | true => rfl
  | false => rfl

theorem State.linkAndJump_setFlags (s : State) (d : Reg) (target f : Byte) :
    (s.setFlags f).linkAndJump d target = (s.linkAndJump d target).setFlags f :=
  congrArg (fun u => (u.setSp (s.sp + 1)).setPc target)
    ((s.setReg d s.link).memWrite_setFlags s.sp s.link f)

theorem State.loadFrom_setFlags (s : State) (d : Reg) (addr f : Byte) :
    (s.setFlags f).loadFrom d addr = (s.loadFrom d addr).setFlags f := by
  rw [State.loadFrom, s.memRead_setFlags]
  rfl

theorem State.storeTo_setFlags (s : State) (addr : Byte) (r : Reg) (f : Byte) :
    (s.setFlags f).storeTo addr r = (s.storeTo addr r).setFlags f :=
  congrArg (fun u => u.advance 3) (s.memWrite_setFlags addr (s.reg r) f)

/-- An instruction does the same to everything but FLAGS whatever FLAGS hold. Where it writes C, S or
V, `g` is `f` with the same bits written; elsewhere `g` is `f`. -/
theorem exec_setFlags {i : Instr} {s t : State} (f : Byte) (h : exec i s = .next t) :
    ∃ g, exec i (s.setFlags f) = .next (t.setFlags g) := by
  cases i with
  | add | sub | mul =>
    cases h
    exact ⟨_, rfl⟩
  | div d s1 s2 =>
    by_cases hz : s.reg s2 = 0
    · cases (exec_div_zero s d s1 s2 hz).symm.trans h
      exact ⟨f, exec_div_zero (s.setFlags f) d s1 s2 hz⟩
    · cases (exec_div s d s1 s2 hz).symm.trans h
      exact ⟨_, exec_div (s.setFlags f) d s1 s2 hz⟩
  | nop | hlt | ldi | mov | and | or | xor | not | shl | shr =>
    cases h
    exact ⟨f, rfl⟩
  | beq | bne | blt | bge | ble | bgt =>
    cases h
    exact ⟨f, congrArg _ (s.branchIf_setFlags ..)⟩
  | jal | jalr =>
    cases h
    exact ⟨f, congrArg _ (s.linkAndJump_setFlags ..)⟩
  | ldr | inp =>
    cases h
    exact ⟨f, congrArg _ (s.loadFrom_setFlags ..)⟩
  | str | out =>
    cases h
    exact ⟨f, congrArg _ (s.storeTo_setFlags ..)⟩
  | push =>
    cases h
    refine ⟨f, ?_⟩
    rw [exec_push, State.setFlags_sp, State.memWrite_setFlags]
    rfl
  | pop =>
    cases h
    refine ⟨f, ?_⟩
    rw [exec_pop, State.setFlags_sp, State.memRead_setFlags]
    rfl
  | ret =>
    cases h
    refine ⟨f, ?_⟩
    rw [exec_ret, State.setFlags_sp, State.memRead_setFlags]
    rfl

/-- A step does the same to everything but FLAGS whatever FLAGS hold. -/
theorem step_setFlags {s t : State} (f : Byte) (h : step s = .next t) :
    ∃ g, step (s.setFlags f) = .next (t.setFlags g) := by
  rcases step_cases h with ⟨hstop, rfl⟩ | ⟨hrun, i, hi, hexec⟩ | ⟨hrun, cause, b, he, rfl⟩
  · exact ⟨f, step_not_running hstop⟩
  · obtain ⟨g, hg⟩ := exec_setFlags f hexec
    refine ⟨g, ?_⟩
    rw [step_running (s := s.setFlags f) hrun, s.fetch_setFlags, hi]
    exact hg
  · refine ⟨f, ?_⟩
    rw [step_running (s := s.setFlags f) hrun, s.fetch_setFlags, he]
    rfl

/-! ## Only C, S and V are written -/

theorem keepsOtherFlags_of_flags_eq {s t : State} (h : t.flags = s.flags) : KeepsOtherFlags s t :=
  fun p _ _ _ => by rw [h]

/-- R32: no instruction writes a bit of FLAGS but C, S and V. -/
theorem exec_keepsOtherFlags {i : Instr} {s t : State} (h : exec i s = .next t) :
    KeepsOtherFlags s t := by
  cases i with
  | add | sub | mul =>
    cases h
    exact s.arith_keepsOtherFlags _ _ _
  | div d s1 s2 =>
    by_cases hz : s.reg s2 = 0
    · cases (exec_div_zero s d s1 s2 hz).symm.trans h
      exact keepsOtherFlags_of_flags_eq rfl
    · cases (exec_div s d s1 s2 hz).symm.trans h
      intro p hc _ hv
      simp [flagAt_setFlagAt_ne _ _ hc, flagAt_setFlagAt_ne _ _ hv]
  | nop | hlt | ldi | mov | and | or | xor | not | shl | shr =>
    cases h
    exact keepsOtherFlags_of_flags_eq rfl
  | beq | bne | blt | bge | ble | bgt =>
    cases h
    obtain ⟨_, _, hflags, _⟩ := s.branchIf_keepsAllButPc _ _
    exact keepsOtherFlags_of_flags_eq hflags
  | jal | jalr =>
    cases h
    exact keepsOtherFlags_of_flags_eq (s.linkAndJump_flags ..)
  | push | str | out =>
    cases h
    exact keepsOtherFlags_of_flags_eq (s.memWrite_flags ..)
  | ldr | inp | pop | ret =>
    cases h
    exact keepsOtherFlags_of_flags_eq (s.memRead_flags _)

/-- No instruction writes the configuration. -/
theorem exec_cfg {i : Instr} {s t : State} (h : exec i s = .next t) : t.cfg = s.cfg := by
  cases i with
  | div d s1 s2 =>
    by_cases hz : s.reg s2 = 0
    · cases (exec_div_zero s d s1 s2 hz).symm.trans h
      rfl
    · cases (exec_div s d s1 s2 hz).symm.trans h
      rfl
  | add | sub | mul | nop | hlt | ldi | mov | and | or | xor | not | shl | shr =>
    cases h
    rfl
  | beq | bne | blt | bge | ble | bgt =>
    cases h
    obtain ⟨p, hp⟩ := s.branchIf_setPc _ _
    rw [hp, State.setPc_cfg]
  | jal | jalr | push | str | out =>
    cases h
    exact State.memWrite_cfg ..
  | ldr | inp | pop | ret =>
    cases h
    exact s.memRead_cfg _

/-- No step writes the configuration or a bit of FLAGS but C, S and V: the fetch before the
instruction, or before the fault, changes the keyboard queue only. -/
theorem step_keepsCfgAndOtherFlags {s t : State} (h : step s = .next t) :
    t.cfg = s.cfg ∧ KeepsOtherFlags s t := by
  obtain ⟨q, hq, _⟩ := s.fetch_state
  rcases step_cases h with ⟨_, rfl⟩ | ⟨_, i, _, hexec⟩ | ⟨_, cause, b, _, rfl⟩
  · exact ⟨rfl, keepsOtherFlags_of_flags_eq rfl⟩
  · rw [hq] at hexec
    exact ⟨(exec_cfg hexec :), (exec_keepsOtherFlags hexec :)⟩
  · rw [hq]
    exact ⟨rfl, keepsOtherFlags_of_flags_eq rfl⟩

/-- With a legal configuration the bit of Zero is none of C, S and V, so no step writes it. -/
theorem step_flagZ {s t : State} (hwf : s.cfg.wf = true) (h : step s = .next t) :
    t.flagZ = s.flagZ := by
  obtain ⟨hcfg, hother⟩ := step_keepsCfgAndOtherFlags h
  obtain ⟨hzc, hzs, hzv, -⟩ := (meetsR6_of_wf hwf).flagBitsDiffer
  rw [State.flagZ, hcfg]
  exact hother _ hzc hzs hzv

/-- Settles O53, from the fetch and every instruction commuting with a change of FLAGS, and from C, S
and V being all that a step writes of FLAGS. -/
theorem flagsSteerNothing : Obligations.FlagsSteerNothing := fun _ _ f h =>
  ⟨step_setFlags f h, fun hwf => step_flagZ hwf h⟩

end Sys2Proof.Machine
end

section
/-! SUPPORT. The decoder inverted: the bytes that decode are an opcode byte, its operand bytes and a
rest, and nothing else is read; with it the statements about machine code (spec 30_encoding.md R81 to
R97). -/

namespace Sys2Proof

/-- The operand decoder looks at no byte past the operands of its mnemonic (R98). -/
theorem decodeOperands_append (o : Op) {bs : List Byte} (h : bs.length = o.shapes.length)
    (rest : List Byte) :
    decodeOperands o ((bs ++ rest).getD 0 0) ((bs ++ rest).getD 1 0) ((bs ++ rest).getD 2 0) =
      decodeOperands o (bs.getD 0 0) (bs.getD 1 0) (bs.getD 2 0) := by
  cases o with
  | nop | ret | hlt => rfl
  | push | pop =>
    obtain ⟨b1, rfl⟩ := List.length_eq_one_iff.1 h
    rfl
  | not | jalr | mov | jal | ldr | inp | ldi | str | out =>
    obtain ⟨b1, b2, rfl⟩ := List.length_eq_two.1 h
    rfl
  | add | sub | mul | div | and | or | xor | shl | shr | beq | bne | blt | bge | ble | bgt =>
    obtain ⟨b1, b2, b3, rfl⟩ := List.length_eq_three.1 h
    rfl

/-- A byte without a mnemonic is rejected by name, whatever follows. -/
theorem decode_unassigned {m : OpcodeMap} {op : Byte} (h : m.lookup op = none) (rest : List Byte) :
    decode m (op :: rest) = .error (.illegalOpcode op) := by
  simp only [decode, h]

section
variable {m : OpcodeMap} {op : Byte} {o : Op} {bs : List Byte} (ho : m.lookup op = some o)
include ho

/-- Once the opcode has a mnemonic, the decoder's answer is never an illegal opcode. -/
theorem decode_ne_illegalOpcode (rest : List Byte) (b : Byte) :
    decode m (op :: rest) ≠ .error (.illegalOpcode b) := by
  simp only [decode, ho]
  split
  · simp
  · split <;> simp

variable (hlen : bs.length = o.shapes.length) (rest : List Byte)
include hlen

theorem decode_eq_ok {i : Instr}
    (h : decodeOperands o (bs.getD 0 0) (bs.getD 1 0) (bs.getD 2 0) = .ok i) :
    decode m (op :: (bs ++ rest)) = .ok (i, rest) := by
  have hshort : ¬ (bs ++ rest).length < o.shapes.length := by simp [← hlen]
  simp only [decode, ho, if_neg hshort, decodeOperands_append o hlen, h]
  rw [← hlen, List.drop_left]

theorem decode_eq_illegalRegister {b : Byte}
    (h : decodeOperands o (bs.getD 0 0) (bs.getD 1 0) (bs.getD 2 0) = .error b) :
    decode m (op :: (bs ++ rest)) = .error (.illegalRegister b) := by
  have hshort : ¬ (bs ++ rest).length < o.shapes.length := by simp [← hlen]
  simp only [decode, ho, if_neg hshort, decodeOperands_append o hlen, h]

end

/-- The one way bytes decode: an opcode byte that has a mnemonic, as many bytes as that has operands,
which decode to the instruction, and the rest. -/
theorem decode_ok_inv {m : OpcodeMap} {bytes rest : List Byte} {i : Instr}
    (h : decode m bytes = .ok (i, rest)) :
    ∃ op o bs, bytes = op :: (bs ++ rest) ∧ m.lookup op = some o ∧ bs.length = o.shapes.length ∧
      decodeOperands o (bs.getD 0 0) (bs.getD 1 0) (bs.getD 2 0) = .ok i := by
  cases bytes with
  | nil => cases h
  | cons op tail =>
    cases ho : m.lookup op with
    | none => cases (decode_unassigned ho tail).symm.trans h
    | some o =>
      simp only [decode, ho] at h
      split at h
      · cases h
      next hshort =>
        have hlen : (tail.take o.shapes.length).length = o.shapes.length :=
          List.length_take_of_le (Nat.le_of_not_lt hshort)
        have hops := decodeOperands_append o hlen (tail.drop o.shapes.length)
        rw [List.take_append_drop] at hops
        split at h
        · cases h
        next i' hi =>
          cases h
          exact ⟨op, o, tail.take o.shapes.length, by rw [List.take_append_drop], ho, hlen,
            hops.symm.trans hi⟩

/-- What the operand decoder accepts has the mnemonic and the operand bytes it was given. -/
theorem op_operandBytes_of_decodeOperands {o : Op} {bs : List Byte} {i : Instr}
    (hlen : bs.length = o.shapes.length)
    (h : decodeOperands o (bs.getD 0 0) (bs.getD 1 0) (bs.getD 2 0) = .ok i) :
    i.op = o ∧ i.operandBytes = bs := by
  rcases decodeOperands_checked o hlen with ⟨b, _, hb⟩ | ⟨_, j, hj, hjo⟩
  · cases hb.symm.trans h
  · cases hj.symm.trans h
    exact hjo

/-- Settles O41, which is the round trip from an instruction. -/
theorem decodeOfEncode : Obligations.DecodeOfEncode := fun _ i rest hwf =>
  decode_encode_append hwf i rest

/-- Settles O42, from the inversion of the decoder: the opcode byte found is the one the encoder
writes, and the operand bytes are those of the instruction. -/
theorem encodeOfDecode : Obligations.EncodeOfDecode := by
  intro m bytes rest i h
  obtain ⟨op, o, bs, rfl, ho, hlen, hd⟩ := decode_ok_inv h
  obtain ⟨hio, hib⟩ := op_operandBytes_of_decodeOperands hlen hd
  rw [encode, hio, hib, OpcodeMap.byteOf_of_lookup ho, List.cons_append]

theorem decode_illegalOpcode_iff {m : OpcodeMap} {op : Byte} {rest : List Byte} :
    decode m (op :: rest) = .error (.illegalOpcode op) ↔ op ∉ m.toList := by
  rw [← OpcodeMap.lookup_eq_none]
  refine ⟨fun h => ?_, fun h => decode_unassigned h rest⟩
  cases ho : m.lookup op with
  | none => rfl
  | some o => exact absurd h (decode_ne_illegalOpcode ho rest op)

theorem defaultOpcodes_toList : defaultOpcodes.toList = (List.range 0x1D).map (BitVec.ofNat 8) := by
  decide

/-- The default map assigns exactly the bytes below 0x1D. -/
theorem mem_defaultOpcodes_toList (op : Byte) : op ∈ defaultOpcodes.toList ↔ op.toNat < 0x1D := by
  rw [defaultOpcodes_toList, List.mem_map]
  constructor
  · rintro ⟨k, hk, rfl⟩
    rw [List.mem_range] at hk
    rw [BitVec.toNat_ofNat]
    omega
  · intro h
    exact ⟨op.toNat, List.mem_range.2 h, by simp⟩

/-- Settles O43, from the lookup failing on the unassigned bytes only. -/
theorem illegalOpcodesAreTheUnassignedOnes : Obligations.IllegalOpcodesAreTheUnassignedOnes :=
  ⟨fun _ _ _ => decode_illegalOpcode_iff,
    fun op => (not_congr (mem_defaultOpcodes_toList op)).trans Nat.not_lt⟩

/-- Settles O44, from the check of the operand bytes of every mnemonic. -/
theorem onlyRegisterBytesAreChecked : Obligations.OnlyRegisterBytesAreChecked := by
  intro m o hwf bs hlen
  have ho := m.lookup_byteOf hwf o
  rcases decodeOperands_checked o hlen with ⟨b, hb, hd⟩ | ⟨hb, i, hd, hio, hib⟩
  · simp only [hb]
    simpa using decode_eq_illegalRegister ho hlen [] hd
  · simp only [hb]
    exact ⟨i, by simpa using decode_eq_ok ho hlen [] hd, by rw [encode, hio, hib]⟩

/-- Settles O45: each worked word is the machine code of its instruction under the default map. -/
theorem workedEncodings : Obligations.WorkedEncodings :=
  have hwf : defaultOpcodes.wf = true := by decide
  have word (i : Instr) : decode defaultOpcodes (encode defaultOpcodes i ++ []) = .ok (i, []) :=
    decode_encode_append hwf i []
  ⟨word (.ldi .r0 5), word (.add .r2 .r0 .r1), word (.str 0x80 .r0), word (.bne .r1 .r3 0xF5),
    word (.jal .r7 0x10), word (.push .r0), word .hlt, word (.not .r1 .r0), word (.out 0xF0 .r0),
    rfl, rfl⟩

end Sys2Proof
end

section
/-! SUPPORT. The byte of MEM under the keyboard's address: no operation reads it, and every operation
leaves it where it was put (spec 20_memory.md R62). -/

namespace Sys2Proof.Machine

/-- Stores to different addresses of a canonical memory can change places. -/
theorem Memory.write_comm {m : Memory} (hm : Memory.wf m = true) {a b : Byte} (v w : Byte)
    (h : a ≠ b) :
    Memory.write (Memory.write m a v) b w = Memory.write (Memory.write m b w) a v := by
  refine Memory.ext (Memory.wf_write _ _ (Memory.wf_write _ _ hm))
    (Memory.wf_write _ _ (Memory.wf_write _ _ hm)) fun x => ?_
  by_cases hb : x = b
  · subst hb
    rw [Memory.read_write_same _ _ (Memory.wf_write _ _ hm), Memory.read_write_ne _ _ h.symm,
      Memory.read_write_same _ _ hm]
  · rw [Memory.read_write_ne _ _ hb]
    by_cases ha : x = a
    · subst ha
      rw [Memory.read_write_same _ _ hm, Memory.read_write_same _ _ (Memory.wf_write _ _ hm)]
    · rw [Memory.read_write_ne _ _ ha, Memory.read_write_ne _ _ ha, Memory.read_write_ne _ _ hb]

/-- The state with the byte `v` in MEM under the keyboard's address, behind the dispatcher. -/
def State.setUnderKbd (s : State) (v : Byte) : State := s.setMem s.cfg.kbdAddr v

theorem State.kbdRead_setUnderKbd (s : State) (v : Byte) :
    (s.setUnderKbd v).kbdRead = (s.kbdRead.1, s.kbdRead.2.setUnderKbd v) := by
  unfold State.kbdRead
  rw [State.setUnderKbd, State.setMem_kbdFifo]
  split <;> rfl

theorem State.memRead_setUnderKbd (s : State) (a v : Byte) :
    (s.setUnderKbd v).memRead a = ((s.memRead a).1, (s.memRead a).2.setUnderKbd v) := by
  by_cases ha : a = s.cfg.kbdAddr
  · subst ha
    rw [s.memRead_kbd, ← s.kbdRead_setUnderKbd v]
    exact (s.setUnderKbd v).memRead_kbd
  · rw [s.memRead_plain ha, (s.setUnderKbd v).memRead_plain ha, State.setUnderKbd,
      State.setMem_mem, Memory.read_write_ne _ _ ha]

theorem State.memWrite_setUnderKbd {s : State} (hm : Memory.wf s.mem = true) (a w v : Byte) :
    (s.setUnderKbd v).memWrite a w = (s.memWrite a w).setUnderKbd v := by
  rcases s.memWrite_cases a w with ⟨ha, e⟩ | ⟨ha, e⟩
  · rw [e, ha]
    exact (s.setUnderKbd v).memWrite_kbd w
  · rw [e, (s.setUnderKbd v).memWrite_mem w ha]
    exact congrArg (fun m => { s with mem := m }) (Memory.write_comm hm v w ha.symm)

theorem State.readBytes_setUnderKbd (n : Nat) (a v : Byte) (s : State) :
    (s.setUnderKbd v).readBytes n a =
      ((s.readBytes n a).1, (s.readBytes n a).2.setUnderKbd v) := by
  induction n generalizing a s with
  | zero => rfl
  | succ n ih => simp only [State.readBytes, State.memRead_setUnderKbd, ih]

/-- A fetch finds the same instruction or fault whatever the byte is. -/
theorem State.fetch_setUnderKbd (s : State) (v : Byte) :
    (s.setUnderKbd v).fetch = (s.fetch.1, s.fetch.2.setUnderKbd v) := by
  have hpc : (s.setUnderKbd v).pc = s.pc := rfl
  have hcfg : (s.setUnderKbd v).cfg = s.cfg := rfl
  simp only [State.fetch, hpc, hcfg, State.memRead_setUnderKbd]
  split
  · rfl
  · simp only [State.readBytes_setUnderKbd]
    split <;> rfl

theorem State.branchIf_setUnderKbd (s : State) (taken : Bool) (off v : Byte) :
    (s.setUnderKbd v).branchIf taken off = (s.branchIf taken off).setUnderKbd v := by
  cases taken with
  | true => rfl
  | false => rfl

theorem State.loadFrom_setUnderKbd (s : State) (d : Reg) (addr v : Byte) :
    (s.setUnderKbd v).loadFrom d addr = (s.loadFrom d addr).setUnderKbd v := by
  rw [State.loadFrom, s.memRead_setUnderKbd]
  rfl

section
variable {s : State} (hm : Memory.wf s.mem = true)
include hm

theorem State.linkAndJump_setUnderKbd (d : Reg) (target v : Byte) :
    (s.setUnderKbd v).linkAndJump d target = (s.linkAndJump d target).setUnderKbd v :=
  congrArg (fun u => (u.setSp (s.sp + 1)).setPc target)
    (State.memWrite_setUnderKbd (s := s.setReg d s.link) hm s.sp s.link v)

theorem State.storeTo_setUnderKbd (addr : Byte) (r : Reg) (v : Byte) :
    (s.setUnderKbd v).storeTo addr r = (s.storeTo addr r).setUnderKbd v :=
  congrArg (fun u => u.advance 3) (State.memWrite_setUnderKbd hm addr (s.reg r) v)

/-- An instruction does the same to everything else whatever the byte is, and leaves the byte: only a
store could meet it in MEM, and a store at its address goes to the device. -/
theorem exec_setUnderKbd {i : Instr} {t : State} (v : Byte) (h : exec i s = .next t) :
    exec i (s.setUnderKbd v) = .next (t.setUnderKbd v) := by
  cases i with
  | div d s1 s2 =>
    by_cases hz : s.reg s2 = 0
    · cases (exec_div_zero s d s1 s2 hz).symm.trans h
      exact exec_div_zero (s.setUnderKbd v) d s1 s2 hz
    · cases (exec_div s d s1 s2 hz).symm.trans h
      exact exec_div (s.setUnderKbd v) d s1 s2 hz
  | nop | hlt | ldi | mov | and | or | xor | not | shl | shr | add | sub | mul =>
    cases h
    rfl
  | beq | bne | blt | bge | ble | bgt =>
    cases h
    exact congrArg _ (s.branchIf_setUnderKbd ..)
  | jal | jalr =>
    cases h
    exact congrArg _ (State.linkAndJump_setUnderKbd hm ..)
  | ldr | inp =>
    cases h
    exact congrArg _ (s.loadFrom_setUnderKbd ..)
  | str | out =>
    cases h
    exact congrArg _ (State.storeTo_setUnderKbd hm ..)
  | push r =>
    cases h
    exact congrArg _ (congrArg (fun u => (u.setSp (s.sp - 1)).advance 2)
      (State.memWrite_setUnderKbd hm s.sp (s.reg r) v))
  | pop d =>
    cases h
    exact congrArg _ (congrArg (fun p => ((p.2.setSp (s.sp + 1)).setReg d p.1).advance 2)
      (s.memRead_setUnderKbd (s.sp + 1) v))
  | ret =>
    cases h
    exact congrArg _ (congrArg (fun p => (p.2.setSp (s.sp + 1)).setPc p.1)
      (s.memRead_setUnderKbd s.sp v))

end

/-- Fetching leaves MEM as it is. -/
theorem State.fetch_mem (s : State) : s.fetch.2.mem = s.mem := by
  obtain ⟨q, hq, _⟩ := s.fetch_state
  rw [hq, State.setFifo_mem]

/-- A step does the same to everything else whatever the byte is, and leaves the byte. -/
theorem step_setUnderKbd {s t : State} (hm : Memory.wf s.mem = true) (v : Byte)
    (h : step s = .next t) : step (s.setUnderKbd v) = .next (t.setUnderKbd v) := by
  rcases step_cases h with ⟨hstop, rfl⟩ | ⟨hrun, i, hi, hexec⟩ | ⟨hrun, cause, b, he, rfl⟩
  · exact step_not_running hstop
  · rw [step_running (s := s.setUnderKbd v) hrun, s.fetch_setUnderKbd, hi]
    exact exec_setUnderKbd (s.fetch_mem.symm ▸ hm) v hexec
  · rw [step_running (s := s.setUnderKbd v) hrun, s.fetch_setUnderKbd, he]
    rfl

theorem step_cfg {s t : State} (h : step s = .next t) : t.cfg = s.cfg :=
  (step_keepsCfgAndOtherFlags h).1

/-- Settles O54, from the fetch and every instruction commuting with a change of the byte: the
keyboard's address is the same before and after the step. -/
theorem byteUnderKeyboardIsIrrelevant : Obligations.ByteUnderKeyboardIsIrrelevant := by
  intro s t v hm h
  have hstep := step_setUnderKbd hm v h
  rwa [State.setUnderKbd, State.setUnderKbd, step_cfg h] at hstep

end Sys2Proof.Machine
end

section
/-! SUPPORT. What performing an instruction can do to each part of the state, said once: the control
state, MEM and the keyboard queue, SP, FLAGS; and the statements that say it of every instruction. -/

namespace Sys2Proof.Machine

/-! ## IR, RUN, FAULT_INFO and the configuration -/

/-- Every instruction but HLT and a DIV by zero keeps the control state. -/
theorem exec_keepsControl {i : Instr} {s t : State} (hhlt : i ≠ .hlt)
    (hdiv : ∀ d s1 s2, i = .div d s1 s2 → s.reg s2 ≠ 0) (h : exec i s = .next t) :
    KeepsControl s t := by
  cases i with
  | hlt => exact absurd rfl hhlt
  | div d s1 s2 =>
    cases (exec_div s d s1 s2 (hdiv d s1 s2 rfl)).symm.trans h
    exact ⟨rfl, rfl, rfl, rfl⟩
  | add | sub | mul | nop | ldi | mov | and | or | xor | not | shl | shr =>
    cases h
    exact ⟨rfl, rfl, rfl, rfl⟩
  | beq | bne | blt | bge | ble | bgt =>
    cases h
    obtain ⟨_, _, _, _, hcontrol⟩ := s.branchIf_keepsAllButPc _ _
    exact hcontrol
  | jal | jalr =>
    cases h
    exact s.linkAndJump_keepsControl ..
  | push | str | out =>
    cases h
    exact s.memWrite_keepsControl ..
  | ldr | inp | pop | ret =>
    cases h
    exact s.memRead_keepsControl _

/-- What an instruction can do to the control state: HLT halts, a DIV by zero faults, and nothing else
touches it. -/
theorem exec_control_cases {i : Instr} {s t : State} (h : exec i s = .next t) :
    (i = .hlt ∧ t = (s.setRun .halted).advance 1) ∨
    (∃ d s1 s2, i = .div d s1 s2 ∧ s.reg s2 = 0 ∧ t = s.raise .divideByZero s2.toByte) ∨
    (i ≠ .hlt ∧ (∀ d s1 s2, i = .div d s1 s2 → s.reg s2 ≠ 0) ∧ KeepsControl s t) := by
  by_cases hhlt : i = .hlt
  · subst hhlt
    cases h
    exact .inl ⟨rfl, rfl⟩
  by_cases hdiv : ∃ d s1 s2, i = .div d s1 s2 ∧ s.reg s2 = 0
  · obtain ⟨d, s1, s2, rfl, hz⟩ := hdiv
    cases (exec_div_zero s d s1 s2 hz).symm.trans h
    exact .inr (.inl ⟨d, s1, s2, rfl, hz, rfl⟩)
  · have hnonzero : ∀ d s1 s2, i = .div d s1 s2 → s.reg s2 ≠ 0 := fun d s1 s2 hi hz =>
      hdiv ⟨d, s1, s2, hi, hz⟩
    exact .inr (.inr ⟨hhlt, hnonzero, exec_keepsControl hhlt hnonzero h⟩)

/-- No instruction writes IR. -/
theorem exec_ir {i : Instr} {s t : State} (h : exec i s = .next t) : t.ir = s.ir := by
  rcases exec_control_cases h with ⟨_, rfl⟩ | ⟨_, _, _, _, _, rfl⟩ | ⟨_, _, hir, _⟩
  · rfl
  · rfl
  · exact hir

/-- Settles O6: this is what DIV does when the divisor is 0. -/
theorem divByZeroFaults : Obligations.DivByZeroFaults := fun s d s1 s2 hz =>
  ⟨rfl, exec_div_zero s d s1 s2 hz⟩

/-- Settles O38, from what an instruction can do to the control state: the running state is left by
HLT, which does not fault, and by DIV with a zero divisor. -/
theorem onlyDivByZeroFaultsInExecution : Obligations.OnlyDivByZeroFaultsInExecution := by
  intro i s t hrun h
  rcases exec_control_cases h with ⟨rfl, rfl⟩ | ⟨d, s1, s2, rfl, hz, rfl⟩ | ⟨_, hdiv, _, hr, _⟩
  · exact iff_of_false nofun (by rintro ⟨_, _, _, hi, _⟩; cases hi)
  · exact iff_of_true rfl ⟨d, s1, s2, rfl, hz⟩
  · refine iff_of_false (by rw [hr, hrun]; nofun) ?_
    rintro ⟨d, s1, s2, hi, hz⟩
    exact hdiv d s1 s2 hi hz

/-! ## MEM and the keyboard queue -/

theorem State.memWrite_setReg (s : State) (d : Reg) (x a v : Byte) :
    (s.setReg d x).memWrite a v = (s.memWrite a v).setReg d x := by
  rcases s.memWrite_cases a v with ⟨ha, e⟩ | ⟨ha, e⟩
  · rw [e, ha]
    exact (s.setReg d x).memWrite_kbd v
  · rw [e]
    exact (s.setReg d x).memWrite_mem v ha

section
variable (s : State) (d : Reg) (target : Byte)

theorem State.linkAndJump_mem :
    (s.linkAndJump d target).mem = (s.memWrite s.sp (s.pc + 3)).mem := by
  simp [State.linkAndJump, State.memWrite_setReg, State.link]

theorem State.linkAndJump_kbdFifo :
    (s.linkAndJump d target).kbdFifo = (s.memWrite s.sp (s.pc + 3)).kbdFifo := by
  simp [State.linkAndJump, State.memWrite_setReg, State.link]

end

/-- What an instruction can do to MEM and the keyboard queue: one write at its store address, or one
read at its load address, or nothing. -/
theorem exec_storage_cases {i : Instr} {s t : State} (h : exec i s = .next t) :
    (∃ a v, storeAddr i s = some a ∧ loadAddr i s = none ∧
      t.mem = (s.memWrite a v).mem ∧ t.kbdFifo = (s.memWrite a v).kbdFifo) ∨
    (∃ a, storeAddr i s = none ∧ loadAddr i s = some a ∧
      t.mem = s.mem ∧ t.kbdFifo = (s.memRead a).2.kbdFifo) ∨
    (storeAddr i s = none ∧ loadAddr i s = none ∧ t.mem = s.mem ∧ t.kbdFifo = s.kbdFifo) := by
  cases i with
  | jal | jalr =>
    cases h
    exact .inl ⟨_, _, rfl, rfl, s.linkAndJump_mem .., s.linkAndJump_kbdFifo ..⟩
  | push | str | out =>
    cases h
    exact .inl ⟨_, _, rfl, rfl, rfl, rfl⟩
  | ldr | inp | pop | ret =>
    cases h
    exact .inr (.inl ⟨_, rfl, rfl, s.memRead_mem _, rfl⟩)
  | beq | bne | blt | bge | ble | bgt =>
    cases h
    obtain ⟨p, hp⟩ := s.branchIf_setPc _ _
    rw [hp]
    exact .inr (.inr ⟨rfl, rfl, rfl, rfl⟩)
  | div d s1 s2 =>
    by_cases hz : s.reg s2 = 0
    · cases (exec_div_zero s d s1 s2 hz).symm.trans h
      exact .inr (.inr ⟨rfl, rfl, rfl, rfl⟩)
    · cases (exec_div s d s1 s2 hz).symm.trans h
      exact .inr (.inr ⟨rfl, rfl, rfl, rfl⟩)
  | add | sub | mul | nop | hlt | ldi | mov | and | or | xor | not | shl | shr =>
    cases h
    exact .inr (.inr ⟨rfl, rfl, rfl, rfl⟩)

/-- A write changes MEM at its own address only. -/
theorem State.memWrite_read_ne (s : State) {a x : Byte} (v : Byte) (hx : x ≠ a) :
    Memory.read (s.memWrite a v).mem x = Memory.read s.mem x := by
  rcases s.memWrite_cases a v with ⟨_, e⟩ | ⟨_, e⟩
  · rw [e, State.kbdWrite_mem]
  · rw [e, State.setMem_mem, Memory.read_write_ne _ _ hx]

/-- Settles O49, from what an instruction can do to MEM and the keyboard queue: a write changes MEM
at its own address only, and neither transaction meets the queue away from the keyboard's address. -/
theorem dataAccessesGoWhereTheyAreComputed : Obligations.DataAccessesGoWhereTheyAreComputed := by
  intro i s t h
  rcases exec_storage_cases h with ⟨a, v, hst, hld, hmem, hq⟩ | ⟨a, hst, hld, hmem, hq⟩ |
    ⟨hst, hld, hmem, hq⟩
  · rw [hst, hld, hmem, hq]
    refine ⟨fun b hb x hx => ?_, nofun, fun ha _ => ?_⟩
    · cases hb
      exact s.memWrite_read_ne v hx
    · rw [s.memWrite_mem v fun e => ha (congrArg some e), State.setMem_kbdFifo]
  · rw [hst, hld, hmem, hq]
    refine ⟨nofun, fun _ _ => rfl, fun _ ha => ?_⟩
    rw [s.memRead_plain fun e => ha (congrArg some e)]
  · rw [hst, hmem, hq]
    exact ⟨nofun, fun _ _ => rfl, fun _ _ => rfl⟩

/-- Every instruction keeps MEM canonical. -/
theorem exec_memWf {i : Instr} {s t : State} (hm : Memory.wf s.mem = true)
    (h : exec i s = .next t) : Memory.wf t.mem = true := by
  rcases exec_storage_cases h with ⟨a, v, _, _, hmem, _⟩ | ⟨_, _, _, hmem, _⟩ | ⟨_, _, hmem, _⟩
  · rw [hmem]
    rcases s.memWrite_cases a v with ⟨_, e⟩ | ⟨_, e⟩
    · rwa [e, State.kbdWrite_mem]
    · rw [e, State.setMem_mem]
      exact Memory.wf_write a v hm
  · rwa [hmem]
  · rwa [hmem]

/-! ## SP -/

/-- SP after an instruction, by the table of R29. -/
def spAfter (o : Op) (sp : Byte) : Byte :=
  match o with
  | .push => sp - 1
  | .pop | .jal | .jalr | .ret => sp + 1
  | _ => sp

theorem exec_sp {i : Instr} {s t : State} (h : exec i s = .next t) : t.sp = spAfter i.op s.sp := by
  cases i with
  | div d s1 s2 =>
    by_cases hz : s.reg s2 = 0
    · cases (exec_div_zero s d s1 s2 hz).symm.trans h
      rfl
    · cases (exec_div s d s1 s2 hz).symm.trans h
      rfl
  | add | sub | mul | nop | hlt | ldi | mov | and | or | xor | not | shl | shr | push | pop | ret
  | jal | jalr =>
    cases h
    rfl
  | beq | bne | blt | bge | ble | bgt =>
    cases h
    obtain ⟨p, hp⟩ := s.branchIf_setPc _ _
    rw [hp]
    rfl
  | str | out =>
    cases h
    exact s.memWrite_sp ..
  | ldr | inp =>
    cases h
    exact s.memRead_sp _

/-- Settles O50: it is the table of R29. -/
theorem stackPointerMoves : Obligations.StackPointerMoves := by
  intro i s t h
  rw [exec_sp h]
  refine ⟨fun hop => ?down, fun hop => ?up, fun hpush hpop hjal hjalr hret => ?kept⟩
  case down => rw [hop, spAfter]
  case up => rcases hop with hop | hop | hop | hop <;> rw [hop, spAfter]
  case kept =>
    cases hop : i.op with
    | push => exact absurd hop hpush
    | pop => exact absurd hop hpop
    | jal => exact absurd hop hjal
    | jalr => exact absurd hop hjalr
    | ret => exact absurd hop hret
    | _ => rfl

/-! ## FLAGS -/

/-- Every instruction but the arithmetic ones leaves FLAGS whole. -/
theorem exec_flags {i : Instr} {s t : State} (hadd : i.op ≠ .add) (hsub : i.op ≠ .sub)
    (hmul : i.op ≠ .mul) (hdiv : i.op ≠ .div) (h : exec i s = .next t) : t.flags = s.flags := by
  cases i with
  | add => exact absurd rfl hadd
  | sub => exact absurd rfl hsub
  | mul => exact absurd rfl hmul
  | div => exact absurd rfl hdiv
  | nop | hlt | ldi | mov | and | or | xor | not | shl | shr =>
    cases h
    rfl
  | beq | bne | blt | bge | ble | bgt =>
    cases h
    obtain ⟨_, _, hflags, _⟩ := s.branchIf_keepsAllButPc _ _
    exact hflags
  | jal | jalr =>
    cases h
    exact s.linkAndJump_flags ..
  | push | str | out =>
    cases h
    exact s.memWrite_flags ..
  | ldr | inp | pop | ret =>
    cases h
    exact s.memRead_flags _

/-- Settles O51, from what every instruction keeps of FLAGS. -/
theorem flagWriters : Obligations.FlagWriters := fun _ _ _ h =>
  ⟨exec_keepsOtherFlags h, fun hadd hsub hmul hdiv => exec_flags hadd hsub hmul hdiv h⟩

end Sys2Proof.Machine
end

section
/-! SUPPORT. What a step does with what it fetches, that it always has a next state, and how it can
change the control state (spec 10_state.md R33, R34, R40 to R44; 60_exceptions.md R241 to R245). -/

namespace Sys2Proof.Machine

/-! ## A step performs the instruction fetched or takes the fault found -/

theorem step_eq_exec {s s2 : State} {i : Instr} (hrun : s.run = .running)
    (hf : s.fetch = (.ok i, s2)) : step s = exec i s2 := by
  rw [step_running hrun, hf]

theorem step_eq_raise {s s2 : State} {cause : FaultCause} {b : Byte} (hrun : s.run = .running)
    (hf : s.fetch = (.error (cause, b), s2)) : step s = .next (s2.raise cause b) := by
  rw [step_running hrun, hf]

/-- Every state has a next state: an instruction has one, a fault of the core is one, and a stopped
core keeps its state. -/
theorem step_next (s : State) : ∃ t, step s = .next t := by
  by_cases hrun : s.run = .running
  · rcases hf : s.fetch with ⟨⟨cause, b⟩ | i, s2⟩
    · exact ⟨_, step_eq_raise hrun hf⟩
    · rw [step_eq_exec hrun hf]
      exact exec_next i s2
  · exact ⟨s, step_not_running hrun⟩

/-- Settles O39: no branch of a step ends without a next state. -/
theorem everyStateHasANextState : Obligations.EveryStateHasANextState := step_next

/-- Settles O33: bytes that decode are those the fetch accepts. -/
theorem stepRunsTheFetchedInstruction : Obligations.StepRunsTheFetchedInstruction := by
  intro s s1 s2 op o bs i hrun hop ho hbs hd
  obtain ⟨op', o', bs', hbytes, ho', hlen, hd'⟩ := decode_ok_inv hd
  rw [List.append_nil] at hbytes
  cases hbytes
  cases ho.symm.trans ho'
  exact step_eq_exec hrun (State.fetch_eq_ok hop ho hbs hd')

/-- A run of bytes that does not meet `KBD_ADDR` is read from MEM and changes nothing. -/
theorem State.readBytes_eq_of_plain {n : Nat} {a : Byte} {s : State}
    (h : ∀ k < n, a + BitVec.ofNat 8 k ≠ s.cfg.kbdAddr) :
    s.readBytes n a =
      ((List.range n).map fun k => Memory.read s.mem (a + BitVec.ofNat 8 k), s) := by
  induction n generalizing a with
  | zero => rfl
  | succ n ih =>
    have h0 : a ≠ s.cfg.kbdAddr := by simpa using h 0 (by omega)
    have htail := ih (a := a + 1) fun k hk => by
      rw [add_one_add_ofNat]
      exact h (k + 1) (by omega)
    simp only [State.readBytes, s.memRead_plain h0, htail, add_one_add_ofNat,
      List.range_succ_eq_map, List.map_cons, List.map_map, Function.comp_def]
    simp

/-- Settles O34: away from the keyboard's address the fetch reads the bytes of MEM and changes
nothing. -/
theorem stepRunsTheInstructionInMemory : Obligations.StepRunsTheInstructionInMemory := by
  intro s i rest hrun hd hplain
  obtain ⟨op, o, bs, hbytes, ho, hlen, hdec⟩ := decode_ok_inv hd
  obtain ⟨rfl, hib⟩ := op_operandBytes_of_decodeOperands hlen hdec
  obtain ⟨rfl, htail⟩ := List.cons.inj hbytes
  have hlength : i.length = i.op.shapes.length + 1 := Nat.add_comm ..
  have hop : s.memRead s.pc = (Memory.read s.mem s.pc, s) :=
    s.memRead_plain (by simpa using hplain 0 (by omega))
  have hoperands := State.readBytes_eq_of_plain (s := s) (n := i.op.shapes.length) (a := s.pc + 1)
    fun k hk => by
      rw [add_one_add_ofNat]
      exact hplain (k + 1) (by omega)
  have hthree : (List.range 3).map (fun k => Memory.read s.mem (s.pc + 1 + BitVec.ofNat 8 k)) =
      bs ++ rest := by
    rw [← htail]
    simp [List.range_succ_eq_map, BitVec.add_assoc]
  have hbs : s.readBytes i.op.shapes.length (s.pc + 1) = (bs, s) := by
    have hle : i.op.shapes.length ≤ 3 := by
      obtain ⟨-, hlong⟩ := i.op.length_bounds
      rw [Op.length] at hlong
      omega
    rw [hoperands, ← List.take_left' hlen, ← hthree, ← List.map_take, List.take_range,
      Nat.min_eq_left hle]
  exact step_eq_exec hrun (State.fetch_eq_ok hop ho hbs hdec)

/-- Settles O35: the fetch of an unassigned opcode ends after the opcode read. -/
theorem unassignedOpcodeFaults : Obligations.UnassignedOpcodeFaults := by
  intro s s1 op hrun hop hmem
  have hf : s.fetch = (.error (.illegalOpcode, op), s1) := by
    simp only [State.fetch, hop, OpcodeMap.lookup_eq_none.2 hmem]
  have hpc : s1.pc = s.pc := by rw [← s.memRead_pc s.pc, hop]
  refine ⟨rfl, ?_⟩
  rw [step_eq_raise hrun hf, State.raise, hpc]

/-- Settles O36, from the check of the register bytes that every mnemonic has. -/
theorem illegalRegisterByteFaults : Obligations.IllegalRegisterByteFaults := by
  intro s s1 s2 op b o bs hrun hop ho hbs hb
  have hchecked := faultsOnRegisterBytesOnly o s s1 s2 op bs hrun hop ho hbs
  rw [hb] at hchecked
  exact ⟨rfl, hchecked⟩

/-! ## How a step changes the control state -/

/-- What a step of a running core can do to the control state: it performs HLT, or faults in the state
the fetch leaves, or performs another instruction and keeps the control state. -/
theorem step_control_cases {s t : State} (hrun : s.run = .running) (h : step s = .next t) :
    (s.fetch.1 = .ok .hlt ∧ t = (s.fetch.2.setRun .halted).advance 1) ∨
    (∃ cause b, t = s.fetch.2.raise cause b) ∨
    KeepsControl s t := by
  rcases step_cases h with ⟨hstop, _⟩ | ⟨_, i, hi, hexec⟩ | ⟨_, cause, b, _, ht⟩
  · exact absurd hrun hstop
  · rcases exec_control_cases hexec with ⟨rfl, ht⟩ | ⟨_, _, s2, _, _, ht⟩ | ⟨_, _, hkeeps⟩
    · exact .inl ⟨hi, ht⟩
    · exact .inr (.inl ⟨.divideByZero, s2.toByte, ht⟩)
    · obtain ⟨q, hq, _⟩ := s.fetch_state
      rw [hq] at hkeeps
      exact .inr (.inr hkeeps)
  · exact .inr (.inl ⟨cause, b, ht⟩)

/-- Settles O32: a fault and a kept control state both leave RUN other than halted. -/
theorem haltedOnlyViaHlt : Obligations.HaltedOnlyViaHlt := by
  intro s t hrun h hhalted
  rcases step_control_cases hrun h with ⟨hf, _⟩ | ⟨_, _, rfl⟩ | ⟨_, hr, _⟩
  · exact hf
  · cases hhalted
  · cases (hr.symm.trans hhalted).symm.trans hrun

/-- Settles O37: a step that faults does so in the state the fetch leaves, and that differs in the
keyboard queue only. -/
theorem faultsArePrecise : Obligations.FaultsArePrecise := by
  intro s t hrun h hfaulted
  obtain ⟨hpop, hkeep⟩ := s.fetch_kbdFifo
  obtain ⟨q, hq, _⟩ := s.fetch_state
  rcases step_control_cases hrun h with ⟨_, rfl⟩ | ⟨cause, b, rfl⟩ | ⟨_, hr, _⟩
  · cases hfaulted
  · refine ⟨cause, b, s.fetch.2.kbdFifo, ?_, hpop, hkeep⟩
    rw [hq]
    rfl
  · cases (hr.symm.trans hfaulted).symm.trans hrun

/-- Settles O52: the fetch, the instruction and the fault write neither. -/
theorem stepsKeepIrAndConfiguration : Obligations.StepsKeepIrAndConfiguration := by
  intro s t h
  refine ⟨?ir, step_cfg h⟩
  obtain ⟨q, hq, _⟩ := s.fetch_state
  rcases step_cases h with ⟨_, rfl⟩ | ⟨_, i, _, hexec⟩ | ⟨_, cause, b, _, rfl⟩
  · rfl
  · rw [exec_ir hexec, hq, State.setFifo_ir]
  · rw [hq]
    rfl

/-! ## Runs -/

/-- A stopped core keeps its state however long it is let run. -/
theorem runSteps_not_running {s : State} (h : s.run ≠ .running) (n : Nat) :
    runSteps n s = .next s := by
  induction n with
  | zero => rfl
  | succ n ih => rw [runSteps_succ (step_not_running h), ih]

/-- In a stopped core any schedule appends its key events to the keyboard queue, in order, and does
nothing else. -/
theorem runActions_not_running {s : State} (h : s.run ≠ .running) (as : List Action) :
    ∃ q, runActions as s = .next { s with kbdFifo := s.kbdFifo ++ q } := by
  induction as generalizing s with
  | nil => exact ⟨[], by rw [List.append_nil]; rfl⟩
  | cons a as ih =>
    cases a with
    | coreStep =>
      obtain ⟨q, hq⟩ := ih h
      refine ⟨q, ?_⟩
      simp only [runActions, perform, step_not_running h]
      exact hq
    | key c =>
      obtain ⟨q, hq⟩ := ih (s := s.keyEvent c) h
      exact ⟨c :: q, hq.trans (by simp [State.keyEvent])⟩

/-- Settles O31: no step changes a stopped core, and a key event only appends to its queue. -/
theorem haltedAndFaultedAreTerminal : Obligations.HaltedAndFaultedAreTerminal := fun _ h =>
  ⟨runSteps_not_running h, runActions_not_running h⟩

theorem runSteps_one (s : State) : runSteps 1 s = step s := by
  obtain ⟨t, ht⟩ := step_next s
  rw [runSteps_succ ht, runSteps_zero, ht]

/-- A run is its first `n` steps and the run of the others from where those end. -/
theorem runSteps_add {n : Nat} {s t : State} (h : runSteps n s = .next t) (k : Nat) :
    runSteps (n + k) s = runSteps k t := by
  induction n generalizing s with
  | zero =>
    cases h
    rw [Nat.zero_add]
  | succ n ih =>
    obtain ⟨u, hu⟩ := step_next s
    rw [runSteps_succ hu] at h
    rw [Nat.add_right_comm, runSteps_succ hu, ih h]

theorem runSteps_next (n : Nat) (s : State) : ∃ t, runSteps n s = .next t := by
  induction n generalizing s with
  | zero => exact ⟨s, rfl⟩
  | succ n ih =>
    obtain ⟨u, hu⟩ := step_next s
    rw [runSteps_succ hu]
    exact ih u

/-- Batches run one after the other are one run of all their steps. -/
theorem runBatches_eq_runSteps (batches : List Nat) (s : State) :
    runBatches batches s = runSteps batches.sum s := by
  induction batches generalizing s with
  | nil => rfl
  | cons n rest ih =>
    obtain ⟨t, ht⟩ := runSteps_next n s
    simp only [runBatches, ht, List.sum_cons, runSteps_add ht, ih]

/-- Settles O40: every run has an end, and from there the steps that follow are a run of their own. -/
theorem batchBoundariesHaveNoEffect : Obligations.BatchBoundariesHaveNoEffect := by
  intro s
  refine ⟨fun batches => runBatches_eq_runSteps batches s, fun n t ht hstop k => ?_,
    fun n t ht => ?_⟩
  · rw [runSteps_add ht, runSteps_not_running hstop]
  · rw [runSteps_add ht, runSteps_one]

end Sys2Proof.Machine
end

section
/-! SUPPORT. The invariant of constructed machines: construction establishes it and every step and key
event keep it (spec 00_scope.md R6; 10_state.md R20, R28, R32); and the checks of construction
(70_reset_and_hazards.md R281, R282). -/

namespace Sys2Proof.Machine

/-! ## The invariant is kept -/

/-- The keyboard queue is no part of the invariant. -/
theorem State.Inv.setFifo {s : State} (h : s.Inv) (q : List Byte) : (s.setFifo q).Inv :=
  ⟨h.cfgWf, h.memWf, h.irZero, h.otherFlags, h.faultRecorded⟩

/-- A fault is recorded as it is taken. -/
theorem State.Inv.raise {s : State} (h : s.Inv) (cause : FaultCause) (b : Byte) :
    (s.raise cause b).Inv :=
  ⟨h.cfgWf, h.memWf, h.irZero, h.otherFlags, iff_of_true rfl rfl⟩

/-- FAULT_INFO stays absent through HLT, is recorded by DIV by zero, and is kept with RUN by every
other instruction. -/
theorem exec_faultRecorded {i : Instr} {s t : State} (hinv : s.Inv) (hrun : s.run = .running)
    (h : exec i s = .next t) : t.faultInfo.isSome = true ↔ t.run = .faulted := by
  rcases exec_control_cases h with ⟨_, rfl⟩ | ⟨_, _, s2, _, _, rfl⟩ | ⟨_, _, _, hr, hinfo, _⟩
  · have hnone : ¬ s.faultInfo.isSome = true := fun hsome => by
      cases hrun.symm.trans (hinv.faultRecorded.1 hsome)
    exact iff_of_false hnone nofun
  · exact iff_of_true rfl rfl
  · rw [hinfo, hr]
    exact hinv.faultRecorded

/-- Performing an instruction in a running state keeps the invariant. -/
theorem State.Inv.exec {i : Instr} {s t : State} (hinv : s.Inv) (hrun : s.run = .running)
    (h : exec i s = .next t) : t.Inv where
  cfgWf := exec_cfg h ▸ hinv.cfgWf
  memWf := exec_memWf hinv.memWf h
  irZero := (exec_ir h).trans hinv.irZero
  otherFlags p hc hs hv := by
    rw [exec_cfg h] at hc hs hv
    exact (exec_keepsOtherFlags h p hc hs hv).trans (hinv.otherFlags p hc hs hv)
  faultRecorded := exec_faultRecorded hinv hrun h

/-- A step keeps the invariant: the fetch touches the keyboard queue only, and then an instruction is
performed or a fault taken. -/
theorem State.Inv.step {s t : State} (hinv : s.Inv) (h : step s = .next t) : t.Inv := by
  obtain ⟨q, hq, _⟩ := s.fetch_state
  rcases step_cases h with ⟨_, rfl⟩ | ⟨hrun, i, _, hexec⟩ | ⟨_, cause, b, _, rfl⟩
  · exact hinv
  · rw [hq] at hexec
    exact (hinv.setFifo q).exec hrun hexec
  · rw [hq]
    exact (hinv.setFifo q).raise cause b

/-- Settles O59. -/
theorem stepsKeepTheInvariant : Obligations.StepsKeepTheInvariant := fun _ _ hinv h => hinv.step h

theorem State.Inv.perform {s t : State} {a : Action} (hinv : s.Inv) (h : perform s a = .next t) :
    t.Inv := by
  cases a with
  | coreStep => exact hinv.step h
  | key c =>
    cases h
    exact hinv.setFifo _

/-! ## The invariant at construction -/

/-- Memory after construction is canonical. -/
theorem wf_initialMem {c : Cfg} {image : List Byte} (m : Byte → Byte)
    (h : c.romBase.toNat + image.length ≤ memSize) : Memory.wf (initialMem c image m) = true :=
  Memory.wf_writeList image h (Memory.wf_ofFn m)

/-- Construction establishes the invariant. -/
theorem ConstructedFrom.inv {c : Cfg} {image : List Byte} {g : Reg → Byte} {m : Byte → Byte}
    {s : State} (h : ConstructedFrom c image g m s) : s.Inv where
  cfgWf := h.cfg ▸ h.cfgWf
  memWf := h.mem ▸ wf_initialMem m h.imageInMemory
  irZero := h.ir
  otherFlags p _ _ _ := by rw [h.flags]; exact flagAt_zero p
  faultRecorded := by
    rw [h.faultInfo, h.run]
    exact iff_of_false nofun nofun

theorem Reachable.inv {s : State} (h : Reachable s) : s.Inv := by
  induction h with
  | constructed hc => exact (constructedFrom_of_construct hc).inv
  | acted _ ha ih => exact ih.perform ha

/-- Either agent can act in every state. -/
theorem perform_next (s : State) (a : Action) : ∃ t, perform s a = .next t := by
  cases a with
  | coreStep => exact step_next s
  | key c => exact ⟨_, rfl⟩

/-- Settles O60: the invariant holds at construction and every action keeps it. -/
theorem reachableStatesAreGood : Obligations.ReachableStatesAreGood := by
  intro s hs
  refine ⟨hs.inv, fun a => ?_⟩
  obtain ⟨t, ht⟩ := perform_next s a
  exact ⟨t, ht, .acted hs ht⟩

/-! ## The checks of construction -/

section
variable {c : Cfg} {image : List Byte} (g : Reg → Byte) (m : Byte → Byte)

theorem construct_badConfiguration (h : ¬ c.wf = true) :
    construct c image g m = .error .badConfiguration := by
  rw [construct, if_pos (by simpa using h)]

variable (hwf : c.wf = true)
include hwf

theorem construct_imageTooLarge (h : c.romBase.toNat + image.length > c.ramBase.toNat) :
    construct c image g m = .error .imageTooLarge := by
  rw [construct, if_neg (by simp [hwf]), if_pos (by simpa [Cfg.imageFits] using h)]

/-- A legal configuration and an image that fits give a machine. -/
theorem exists_construct (h : c.romBase.toNat + image.length ≤ c.ramBase.toNat) :
    ∃ s, construct c image g m = .ok s := by
  rw [construct, if_neg (by simp [hwf]), if_neg (by simpa [Cfg.imageFits] using h)]
  exact ⟨_, rfl⟩

end

/-- Outside the image a constructed machine's memory is the launch input. -/
theorem ConstructedFrom.read_outside {c : Cfg} {image : List Byte} {g : Reg → Byte}
    {m : Byte → Byte} {s : State} (h : ConstructedFrom c image g m s) {a : Byte}
    (ha : a.toNat < c.romBase.toNat ∨ c.romBase.toNat + image.length ≤ a.toNat) :
    Memory.read s.mem a = m a := by
  rw [h.mem, read_initialMem m a h.imageInMemory, if_neg (by omega)]

/-- Settles O56, from what the check of a configuration says and from the inversion of
construction. -/
theorem constructionChecksAndLaunchInputs : Obligations.ConstructionChecksAndLaunchInputs := by
  intro c image g m
  rw [← c.wf_iff]
  refine ⟨construct_badConfiguration g m, fun hR6 hipf hlarge => ?tooLarge,
    fun hR6 hipf hfits => ?fits⟩
  case tooLarge => exact construct_imageTooLarge g m (c.wf_iff.2 ⟨hR6, hipf⟩) hlarge
  case fits =>
    obtain ⟨s, hs⟩ := exists_construct g m (c.wf_iff.2 ⟨hR6, hipf⟩) hfits
    have hc := constructedFrom_of_construct hs
    exact ⟨s, hs, hc.run, hc.faultInfo, hc.kbdFifo, hc.cfg, hc.reg, fun _ ha => hc.read_outside ha⟩

/-! ## The reset state -/

/-- Memory whose every byte is 0 lists nothing. -/
theorem Memory.ofFn_zero : Memory.ofFn (fun _ => 0) = [] :=
  Memory.ext (Memory.wf_ofFn _) rfl fun a => Memory.read_ofFn _ a

/-- Settles O57: the default configuration passes both checks, and launch inputs 0 leave memory
empty. -/
theorem resetIsAConstruction : Obligations.ResetIsAConstruction := by
  have hwf : defaultCfg.wf = true := by decide
  have hmem : initialMem defaultCfg [] (fun _ => 0) = [] := by
    rw [initialMem, Memory.writeList, Memory.ofFn_zero]
  have hfits : defaultCfg.imageFits [] = true := by decide
  rw [Obligations.ResetIsAConstruction, construct, if_neg (by simp [hwf]), if_neg (by simp [hfits]),
    hmem]
  rfl

/-- Settles O58: the reset state is a construction. -/
theorem resetIsGood : Obligations.ResetIsGood :=
  (constructedFrom_of_construct resetIsAConstruction).inv

end Sys2Proof.Machine
end

section
/-! SUPPORT. The keyboard queue between the host and the program: key events append to it, reads drain
it from the front (spec 60_exceptions.md R255 to R258). -/

namespace Sys2Proof.Machine

/-- Settles O48. -/
theorem keyEventsAppendAndNothingElse : Obligations.KeyEventsAppendAndNothingElse := fun _ _ => rfl

/-- Key events leave their bytes at the tail of the queue, in order. -/
theorem foldl_keyEvent (cs : List Byte) (s : State) :
    cs.foldl State.keyEvent s = s.setFifo (s.kbdFifo ++ cs) := by
  induction cs generalizing s with
  | nil =>
    rw [List.append_nil]
    rfl
  | cons c cs ih =>
    rw [List.foldl_cons, ih, State.keyEvent, State.kbdWrite_kbdFifo, List.append_assoc]
    rfl

/-- Reads of an empty queue give 0 and change nothing. -/
theorem drainKeyboard_of_empty {s : State} (h : s.kbdFifo = []) (n : Nat) :
    drainKeyboard n s = (List.replicate n 0, s) := by
  have hread : s.memRead s.cfg.kbdAddr = (0, s) := by
    rw [s.memRead_kbd]
    simp only [State.kbdRead, h]
  induction n with
  | zero => rfl
  | succ n ih => simp only [drainKeyboard, hread, ih, List.replicate_succ]

/-- As many reads as there are queued bytes give them in order, and the reads after them give 0. -/
theorem drainKeyboard_setFifo (q : List Byte) (extra : Nat) (s : State) :
    drainKeyboard (q.length + extra) (s.setFifo q) =
      (q ++ List.replicate extra 0, s.setFifo []) := by
  induction q with
  | nil => rw [List.length_nil, Nat.zero_add, drainKeyboard_of_empty rfl, List.nil_append]
  | cons c q ih =>
    have hread : (s.setFifo (c :: q)).memRead (s.setFifo (c :: q)).cfg.kbdAddr =
        (c, s.setFifo q) := (s.setFifo (c :: q)).memRead_kbd
    rw [List.length_cons, Nat.add_right_comm]
    simp only [drainKeyboard, hread, ih, List.cons_append]

/-- Settles O47: the key events stand behind the bytes queued before them, and the reads drain the
queue from the front. -/
theorem keyboardDeliversInOrder : Obligations.KeyboardDeliversInOrder := by
  intro s cs extra
  rw [foldl_keyEvent]
  exact drainKeyboard_setFifo (s.kbdFifo ++ cs) extra s

end Sys2Proof.Machine
end

section
/-! SUPPORT. The statements about SUB, MUL and DIV and their flags (spec 40_arithmetic.md R125 to
R130). -/

namespace Sys2Proof.Machine

/-! ## The overflow tests -/

theorem overflowOf_add (a b : Byte) : overflowOf (a.toInt + b.toInt) = a.saddOverflow b := by
  rw [Bool.eq_iff_iff, overflowOf_iff]
  simp only [BitVec.saddOverflow, Bool.or_eq_true, decide_eq_true_eq]
  omega

theorem overflowOf_sub (a b : Byte) : overflowOf (a.toInt - b.toInt) = a.ssubOverflow b := by
  rw [Bool.eq_iff_iff, overflowOf_iff]
  simp only [BitVec.ssubOverflow, Bool.or_eq_true, decide_eq_true_eq]
  omega

/-- Settles O7, from the library's bit tests for signed overflow. -/
theorem overflowRangeTestsAreBitTests : Obligations.OverflowRangeTestsAreBitTests := by
  intro a b
  have hmsb (x : Byte) : x.getLsbD 7 = x.msb := x.msb_eq_getLsbD_last.symm
  simp only [hmsb]
  constructor
  · rw [overflowOf_add, BitVec.saddOverflow_eq]
    simp
  · rw [overflowOf_sub, BitVec.ssubOverflow_eq]
    cases a.msb <;> cases b.msb <;> simp

/-! ## SUB and MUL -/

/-- Settles O2: the raw difference of two bytes is never above 255, so a carry is a difference below
0. -/
theorem subInstruction : Obligations.SubInstruction := by
  intro s d s1 s2 hwf
  have hR6 := meetsR6_of_wf hwf
  refine ⟨encodedAs_of_cfg_wf hwf (.sub d s1 s2), _, exec_sub s d s1 s2, ?result, ?carry, ?sign,
    ?overflow, s.arith_pc .., s.arith_keepsOtherFlags _ _ _, s.arith_keepsAllButRegAndFlags _ _ _⟩
  case result => rw [State.arith_reg, toNat_truncate]
  case carry =>
    rw [State.arith_flagC _ _ _ hR6, carryOf_iff]
    omega
  case sign => rw [State.arith_flagS _ _ _ hR6, State.arith_reg, signOf]
  case overflow => rw [State.arith_flagV, overflowOf_iff, toInt_eq_s8, toInt_eq_s8]

/-- The low byte of the product of two bytes is their product as bytes. -/
theorem truncate_mul (a b : Byte) : truncate ((a.toNat : Int) * b.toNat) = a * b := by
  rw [truncate, BitVec.ofInt_mul]
  simp

theorem mulOverflow_signAgreement {c : Cfg} (h : c.mulOvf = .signAgreement) (a b : Byte) :
    mulOverflow c a b = true ↔
      a.getLsbD 7 = b.getLsbD 7 ∧ (a * b).getLsbD 7 ≠ a.getLsbD 7 := by
  simp [mulOverflow, h, signAgreementOvf]

theorem mulOverflow_graph {c : Cfg} {ones : List (Byte × Byte)} (h : c.mulOvf = .graph ones)
    (a b : Byte) : mulOverflow c a b = true ↔ (a, b) ∈ ones := by
  simp [mulOverflow, h]

/-- Settles O3: the raw product of two bytes is never negative, and V is the configured function of the
operands. -/
theorem mulInstruction : Obligations.MulInstruction := by
  intro s d s1 s2 hwf
  have hR6 := meetsR6_of_wf hwf
  refine ⟨encodedAs_of_cfg_wf hwf (.mul d s1 s2), _, exec_mul s d s1 s2, ?result, ?carry, ?sign,
    fun hagree => ?agreement, fun ones hones => ?graph, s.arith_pc ..,
    s.arith_keepsOtherFlags _ _ _, s.arith_keepsAllButRegAndFlags _ _ _⟩
  case result => rw [State.arith_reg, truncate_mul, BitVec.toNat_mul]
  case carry =>
    rw [State.arith_flagC _ _ _ hR6, carryOf_iff, ← Nat.cast_mul]
    omega
  case sign => rw [State.arith_flagS _ _ _ hR6, State.arith_reg, signOf]
  case agreement =>
    rw [State.arith_flagV, State.arith_reg, truncate_mul, mulOverflow_signAgreement hagree]
  case graph => rw [State.arith_flagV, mulOverflow_graph hones]

/-- The elements of a finite type that pass a test can be listed. -/
theorem exists_list_mem_iff {α : Type} [Fintype α] (test : α → Bool) :
    ∃ l : List α, ∀ x, x ∈ l ↔ test x = true :=
  ⟨(Finset.univ.filter fun x => test x = true).toList, fun x => by simp⟩

/-- Settles O4: the pairs where the function is 1, listed. -/
theorem everyMulOverflowIsConfigurable : Obligations.EveryMulOverflowIsConfigurable := by
  intro f
  obtain ⟨ones, hones⟩ := exists_list_mem_iff fun p : Byte × Byte => f p.1 p.2
  refine ⟨ones, fun c a b => ?_⟩
  rw [Bool.eq_iff_iff, mulOverflow_graph rfl, hones]

/-! ## DIV by a nonzero divisor -/

/-- Settles O5: C and V are written 0 in bits that are neither each other's nor S's. -/
theorem divInstruction : Obligations.DivInstruction := by
  intro s d s1 s2 hwf hz
  obtain ⟨-, -, -, -, hcs, hcv, -, hsv, -, -⟩ := (meetsR6_of_wf hwf).flagBitsDiffer
  have hexec := exec_div s d s1 s2 hz
  refine ⟨encodedAs_of_cfg_wf hwf (.div d s1 s2), _, hexec, ?result, ?carry, ?overflow, ?sign, ?pc,
    exec_keepsOtherFlags hexec, ?frame⟩
  case result =>
    have hle := Nat.div_le_self (s.reg s1).toNat (s.reg s2).toNat
    simp [Nat.mod_eq_of_lt (hle.trans_lt (s.reg s1).isLt)]
  case carry => simp [State.flagC, flagAt_setFlagAt_ne _ _ hcv]
  case overflow => simp [State.flagV]
  case sign => simp [State.flagS, flagAt_setFlagAt_ne _ _ hsv, flagAt_setFlagAt_ne _ _ hcs.symm]
  case pc => simp
  case frame =>
    refine ⟨fun r hr => ?_, rfl, ⟨fun _ => rfl, rfl⟩, rfl, rfl, rfl, rfl⟩
    simp [State.reg_setReg_ne _ _ hr]

end Sys2Proof.Machine
end

section
/-! SUPPORT. The statements about the logic and shift instructions: each is a result without flags
(spec 41_logic_shift.md R141 to R147). -/

namespace Sys2Proof.Machine

/-- Settles O8: the bits of a bitwise result are the results of the bits. -/
theorem andOrXorInstructions : Obligations.AndOrXorInstructions := by
  intro s d s1 s2 hwf
  refine ⟨⟨encodedAs_of_cfg_wf hwf (.and d s1 s2), _, exec_and s d s1 s2, fun k _ => ?and,
      s.result_pc .., s.result_keepsAllButReg ..⟩,
    ⟨encodedAs_of_cfg_wf hwf (.or d s1 s2), _, exec_or s d s1 s2, fun k _ => ?or,
      s.result_pc .., s.result_keepsAllButReg ..⟩,
    ⟨encodedAs_of_cfg_wf hwf (.xor d s1 s2), _, exec_xor s d s1 s2, fun k _ => ?xor,
      s.result_pc .., s.result_keepsAllButReg ..⟩⟩
  case and => rw [State.result_reg, BitVec.getLsbD_and]
  case or => rw [State.result_reg, BitVec.getLsbD_or]
  case xor => rw [State.result_reg, BitVec.getLsbD_xor, Bool.bne_eq_xor]

/-- Settles O9: the complement of a byte is 255 minus it. -/
theorem notInstruction : Obligations.NotInstruction := by
  intro s d r hwf
  refine ⟨encodedAs_of_cfg_wf hwf (.not d r), _, exec_not s d r, ?number, fun k hk => ?bit,
    s.result_pc .., s.result_keepsAllButReg ..⟩
  case number => rw [State.result_reg, BitVec.toNat_not]
  case bit => simp [hk]

theorem shiftLeft_of_ge {a n : Byte} (h : n.toNat ≥ 8) : shiftLeft a n = 0 := if_pos h

theorem toNat_shiftLeft_of_lt {a n : Byte} (h : n.toNat < 8) :
    (shiftLeft a n).toNat = a.toNat * 2 ^ n.toNat % 256 := by
  rw [shiftLeft, if_neg (Nat.not_le.2 h), BitVec.toNat_ofNat]

theorem shiftRight_of_ge {a n : Byte} (h : n.toNat ≥ 8) : shiftRight a n = 0 := if_pos h

/-- A quotient of a byte is a byte. -/
theorem toNat_shiftRight_of_lt {a n : Byte} (h : n.toNat < 8) :
    (shiftRight a n).toNat = a.toNat / 2 ^ n.toNat := by
  rw [shiftRight, if_neg (Nat.not_le.2 h), BitVec.toNat_ofNat]
  exact Nat.mod_eq_of_lt ((Nat.div_le_self _ _).trans_lt a.isLt)

/-- Settles O10, from what the shift gives on either side of amount 8. -/
theorem shiftLeftInstruction : Obligations.ShiftLeftInstruction := by
  intro s d s1 s2 hwf
  refine ⟨encodedAs_of_cfg_wf hwf (.shl d s1 s2), _, exec_shl s d s1 s2, fun hge => ?large,
    fun hlt => ?small, s.result_pc .., s.result_keepsAllButReg ..⟩
  case large => rw [State.result_reg, shiftLeft_of_ge hge]
  case small => rw [State.result_reg, toNat_shiftLeft_of_lt hlt]

/-- Settles O11, from what the shift gives on either side of amount 8. -/
theorem shiftRightInstruction : Obligations.ShiftRightInstruction := by
  intro s d s1 s2 hwf
  refine ⟨encodedAs_of_cfg_wf hwf (.shr d s1 s2), _, exec_shr s d s1 s2, fun hge => ?large,
    fun hlt => ?small, s.result_pc .., s.result_keepsAllButReg ..⟩
  case large => rw [State.result_reg, shiftRight_of_ge hge]
  case small => rw [State.result_reg, toNat_shiftRight_of_lt hlt]

end Sys2Proof.Machine
end

section
/-! SUPPORT. The statements about JALR, HLT, IN and OUT, branch targets, and a store followed by a
load or a fetch of the same address (spec 42_call_return.md R163; 47_system.md R227; 46_io.md R215;
44_branch.md R186; 20_memory.md R70, R74). -/

namespace Sys2Proof.Machine

/-! ## JALR -/

/-- The source read first gives its old value, whatever rdest is. -/
theorem jalrTarget_sourceFirst {s : State} (h : s.cfg.jalrSameReg = .sourceFirst) (d r : Reg) :
    jalrTarget d r s = s.reg r := by
  simp only [jalrTarget, h]

/-- The destination written first gives the link where rdest is the source. -/
theorem jalrTarget_destFirst_same {s : State} (h : s.cfg.jalrSameReg = .destFirst) (r : Reg) :
    jalrTarget r r s = s.pc + 3 := by
  simp only [jalrTarget, h, State.reg_setReg_same, State.link]

/-- Where rdest is not the source the order of the two makes no difference. -/
theorem jalrTarget_ne (s : State) {d r : Reg} (h : d ≠ r) : jalrTarget d r s = s.reg r := by
  cases hjalr : s.cfg.jalrSameReg with
  | sourceFirst => exact jalrTarget_sourceFirst hjalr d r
  | destFirst => simp only [jalrTarget, hjalr, State.reg_setReg_ne _ _ h.symm]

/-- Settles O13: JALR links and jumps as JAL does, to the target that `JALR_SAME_REG` gives. -/
theorem jalrInstruction : Obligations.JalrInstruction := by
  intro s d r hwf hm
  obtain ⟨hlink, hsp, hpc⟩ := s.linkAndJump_spec d (jalrTarget d r s)
  refine ⟨encodedAs_of_cfg_wf hwf (.jalr d r), _, exec_jalr s d r, hlink,
    s.linkAndJump_writeEffect d _ hm, hsp, fun horder => ?oldSource, fun horder => ?link,
    s.linkAndJump_keepsRegsBut d _, s.linkAndJump_flags d _, s.linkAndJump_keepsControl d _⟩
  case oldSource =>
    rw [hpc]
    rcases horder with hne | hfirst
    · exact jalrTarget_ne s hne
    · exact jalrTarget_sourceFirst hfirst d r
  case link =>
    obtain ⟨rfl, hfirst⟩ := horder
    rw [hpc, jalrTarget_destFirst_same hfirst]

/-! ## HLT, IN and OUT, branch targets -/

/-- Settles O30: HLT stops the core and moves past its one byte. -/
theorem hltInstruction : Obligations.HltInstruction := fun s hwf =>
  ⟨encodedAs_of_cfg_wf hwf .hlt, exec_hlt s⟩

/-- Settles O27. -/
theorem inIsLdrAndOutIsStr : Obligations.InIsLdrAndOutIsStr := fun s r addr =>
  ⟨exec_inp_eq_exec_ldr r addr s, exec_out_eq_exec_str addr r s⟩

/-- The signed displacement and the unsigned offset byte reach the same address modulo 256. -/
theorem branchTarget_eq_add (a off : Byte) : branchTarget a off = a + 3 + off := by
  rw [branchTarget, BitVec.ofInt_add, BitVec.ofInt_add, BitVec.ofInt_toInt, BitVec.ofInt_natCast,
    BitVec.ofNat_toNat, BitVec.setWidth_eq]
  rfl

/-- Settles O21: addition modulo 256 can be undone in one way. -/
theorem branchOffsetsReachEveryTarget : Obligations.BranchOffsetsReachEveryTarget := by
  intro a off target
  refine ⟨branchTarget_eq_add a off, ?_⟩
  rw [branchTarget_eq_add]
  constructor
  · rintro rfl
    bv_omega
  · rintro rfl
    bv_omega

/-! ## A store is seen -/

section
variable {s : State} {addr : Byte}

/-- What a store left at a plain address is what the next read there gives. -/
theorem State.storeTo_read (hm : Memory.wf s.mem = true) (h : addr ≠ s.cfg.kbdAddr) (r : Reg) :
    Memory.read (s.storeTo addr r).mem addr = s.reg r := by
  rw [State.storeTo, s.memWrite_mem _ h, State.advance_mem, State.setMem_mem,
    Memory.read_write_same _ _ hm]

theorem State.loadFrom_reg_of_plain (h : addr ≠ s.cfg.kbdAddr) (d : Reg) :
    (s.loadFrom d addr).reg d = Memory.read s.mem addr := by
  rw [State.loadFrom, s.memRead_plain h, State.advance_reg, State.reg_setReg_same]

theorem exec_pop_of_plain (h : s.sp + 1 ≠ s.cfg.kbdAddr) (d : Reg) :
    exec (.pop d) s =
      .next (((s.setSp (s.sp + 1)).setReg d (Memory.read s.mem (s.sp + 1))).advance 2) := by
  rw [exec_pop, s.memRead_plain h]

/-- A running core that fetches the opcode of HLT from MEM halts. -/
theorem step_hlt_of_plain (hrun : s.run = .running) (h : s.pc ≠ s.cfg.kbdAddr)
    (hop : s.cfg.opcodes.lookup (Memory.read s.mem s.pc) = some .hlt) :
    step s = .next ((s.setRun .halted).advance 1) := by
  rw [step_eq_exec hrun (State.fetch_eq_ok (s.memRead_plain h) hop rfl rfl)]
  exact exec_hlt s

end

/-- Settles O28: away from the keyboard's address a store writes MEM, and a load and a fetch read it
there. -/
theorem storesAreSeenByLoadsAndFetches : Obligations.StoresAreSeenByLoadsAndFetches := by
  intro s addr r d hm hplain
  have hread := State.storeTo_read hm hplain r
  have hcfg : (s.storeTo addr r).cfg = s.cfg := s.memWrite_cfg addr (s.reg r)
  rw [← hcfg] at hplain
  refine ⟨s.storeTo addr r, exec_str s r addr, ?read, ⟨_, exec_ldr _ d addr, ?load⟩,
    ⟨_, exec_inp _ d addr, ?load⟩, ?pop, fun hop hrun => ?fetch⟩
  case read => rw [State.memRead_plain _ hplain, hread]
  case load => exact (State.loadFrom_reg_of_plain hplain d).trans hread
  case pop =>
    have hsp : ((s.storeTo addr r).setSp (addr - 1)).sp + 1 = addr := BitVec.sub_add_cancel addr 1
    refine ⟨_, exec_pop_of_plain (by rwa [hsp]) d, ?_⟩
    rw [State.advance_reg, State.reg_setReg_same, hsp, State.setSp_mem, hread]
  case fetch =>
    have hlookup : (s.storeTo addr r).cfg.opcodes.lookup
        (Memory.read (s.storeTo addr r).mem addr) = some .hlt := by rwa [hread]
    exact ⟨_, step_hlt_of_plain (s := (s.storeTo addr r).setPc addr) hrun hplain hlookup, rfl⟩

end Sys2Proof.Machine
end

section
/-! SUPPORT. Instructions performed one after the other: pushes and the pops that undo them, and the
two ways to return from a call (spec 43_stack.md R179; 70_reset_and_hazards.md R292, R293). -/

namespace Sys2Proof.Machine

theorem execAll_cons {i : Instr} {s t : State} (h : exec i s = .next t) (rest : List Instr) :
    execAll (i :: rest) s = execAll rest t := by
  simp only [execAll, h]

theorem execAll_append {is : List Instr} {s t : State} (h : execAll is s = .next t)
    (rest : List Instr) : execAll (is ++ rest) s = execAll rest t := by
  induction is generalizing s with
  | nil =>
    cases h
    rfl
  | cons i is ih =>
    obtain ⟨u, hu⟩ := exec_next i s
    rw [execAll_cons hu] at h
    rw [List.cons_append, execAll_cons hu, ih h]

/-! ## Pushes, then pops -/

theorem exec_push_of_plain {s : State} (h : s.sp ≠ s.cfg.kbdAddr) (r : Reg) :
    exec (.push r) s = .next (((s.setMem s.sp (s.reg r)).setSp (s.sp - 1)).advance 2) := by
  rw [exec_push, s.memWrite_mem _ h]

/-- What a list of pushes leaves: SP moved down by as many, and in each slot the register pushed
there. -/
structure Pushed (rs : List Reg) (s t : State) : Prop where
  cfg : t.cfg = s.cfg
  memWf : Memory.wf t.mem = true
  reg : ∀ r, t.reg r = s.reg r
  sp : t.sp = s.sp - BitVec.ofNat 8 rs.length
  slot : ∀ j (hj : j < rs.length), Memory.read t.mem (s.sp - BitVec.ofNat 8 j) = s.reg rs[j]

/-- Two of 256 consecutive slots are different. -/
theorem slot_ne {sp : Byte} {j k : Nat} (hjk : j < k) (hk : k < 256) :
    sp - BitVec.ofNat 8 j ≠ sp - BitVec.ofNat 8 k := by
  bv_omega

/-- One more push fills the next slot and leaves the earlier ones. -/
theorem Pushed.push {rs : List Reg} {s u : State} (h : Pushed rs s u) (r : Reg)
    (hlen : rs.length < 256) :
    Pushed (rs ++ [r]) s (((u.setMem u.sp (u.reg r)).setSp (u.sp - 1)).advance 2) where
  cfg := h.cfg
  memWf := Memory.wf_write _ _ h.memWf
  reg := h.reg
  sp := by
    rw [State.advance_sp, State.setSp_sp, h.sp, List.length_append, BitVec.sub_sub,
      BitVec.ofNat_add]
    rfl
  slot j hj := by
    rw [State.advance_mem, State.setSp_mem, State.setMem_mem, h.sp, h.reg]
    rw [List.length_append, List.length_singleton] at hj
    rcases Nat.lt_succ_iff_lt_or_eq.1 hj with hlt | rfl
    · rw [Memory.read_write_ne _ _ (slot_ne hlt hlen), h.slot j hlt, List.getElem_append_left hlt]
    · rw [Memory.read_write_same _ _ h.memWf, List.getElem_concat_length rfl]

/-- At most 256 pushes into plain slots. -/
theorem exists_pushed {s : State} (hm : Memory.wf s.mem = true) {rs : List Reg}
    (hlen : rs.length ≤ 256)
    (hplain : ∀ j < rs.length, s.sp - BitVec.ofNat 8 j ≠ s.cfg.kbdAddr) :
    ∃ t, execAll (rs.map Instr.push) s = .next t ∧ Pushed rs s t := by
  induction rs using List.reverseRecOn with
  | nil => exact ⟨s, rfl, rfl, hm, fun _ => rfl, by simp, nofun⟩
  | append_singleton rs r ih =>
    rw [List.length_append, List.length_singleton] at hlen hplain
    obtain ⟨u, hu, hpushed⟩ := ih (by omega) fun j hj => hplain j (by omega)
    have hsp : u.sp ≠ u.cfg.kbdAddr := by
      rw [hpushed.sp, hpushed.cfg]
      exact hplain rs.length (by omega)
    refine ⟨_, ?_, hpushed.push r (by omega)⟩
    rw [List.map_append, execAll_append hu]
    exact execAll_cons (exec_push_of_plain hsp r) []

/-- Pops move SP up and leave MEM and the configuration, wherever their slots are. -/
theorem exists_popped (d : Reg) (n : Nat) (s : State) :
    ∃ t, execAll (List.replicate n (.pop d)) s = .next t ∧ t.cfg = s.cfg ∧ t.mem = s.mem ∧
      t.sp = s.sp + BitVec.ofNat 8 n := by
  induction n generalizing s with
  | zero => exact ⟨s, rfl, rfl, rfl, by simp⟩
  | succ n ih =>
    have hpop := exec_pop s d
    obtain ⟨t, ht, hcfg, hmem, hsp⟩ := ih _
    refine ⟨t, (execAll_cons hpop _).trans ht, hcfg.trans (exec_cfg hpop), hmem.trans ?_, ?_⟩
    · exact s.memRead_mem (s.sp + 1)
    · rw [hsp, exec_sp hpop]
      exact add_one_add_ofNat s.sp n

/-- The last of `n + 1` pops reads the slot `n + 1` above SP. -/
theorem exists_popped_succ (d : Reg) (n : Nat) {s : State}
    (hplain : s.sp + BitVec.ofNat 8 (n + 1) ≠ s.cfg.kbdAddr) :
    ∃ t, execAll (List.replicate (n + 1) (.pop d)) s = .next t ∧
      t.reg d = Memory.read s.mem (s.sp + BitVec.ofNat 8 (n + 1)) ∧
      t.sp = s.sp + BitVec.ofNat 8 (n + 1) := by
  obtain ⟨u, hu, hcfg, hmem, hsp⟩ := exists_popped d n s
  have hlast : u.sp + 1 = s.sp + BitVec.ofNat 8 (n + 1) := by
    rw [hsp, BitVec.ofNat_add, BitVec.add_assoc]
    rfl
  rw [List.replicate_succ', execAll_append hu,
    execAll_cons (exec_pop_of_plain (by rwa [hlast, hcfg]) d)]
  refine ⟨_, rfl, ?_, ?_⟩
  · rw [State.advance_reg, State.reg_setReg_same, hlast, hmem]
  · rw [State.advance_sp, State.setReg_sp, State.setSp_sp, hlast]

/-- Settles O17: after the pushes, the last of `k + 1` pops reads the slot of the register pushed
`k + 1`-th from last. -/
theorem popsReturnPushesInReverse : Obligations.PopsReturnPushesInReverse := by
  intro s rs d k hk hm hlen hplain
  obtain ⟨u, hu, hpushed⟩ := exists_pushed hm hlen hplain
  have hslot : u.sp + BitVec.ofNat 8 (k + 1) = s.sp - BitVec.ofNat 8 (rs.length - 1 - k) := by
    rw [hpushed.sp]
    bv_omega
  obtain ⟨t, ht, hreg, hsp⟩ := exists_popped_succ d k (s := u) (by
    rw [hslot, hpushed.cfg]
    exact hplain _ (by omega))
  refine ⟨t, (execAll_append hu _).trans ht, ?_, ?_⟩
  · rw [hreg, hslot, hpushed.slot]
  · rw [hsp, hpushed.sp]

/-! ## Returning from a call -/

/-- A link stored at a plain address goes to MEM there. -/
theorem State.linkAndJump_mem_of_plain {s : State} (h : s.sp ≠ s.cfg.kbdAddr) (d : Reg)
    (target : Byte) :
    (s.linkAndJump d target).mem = Memory.write s.mem s.sp (s.pc + 3) := by
  rw [s.linkAndJump_mem, s.memWrite_mem _ h, State.setMem_mem]

theorem exec_ret_of_plain {s : State} (h : s.sp ≠ s.cfg.kbdAddr) :
    exec .ret s = .next ((s.setSp (s.sp + 1)).setPc (Memory.read s.mem s.sp)) := by
  rw [exec_ret, s.memRead_plain h]

/-- Settles O18: JAL leaves SP one above the link, so a bare RET reads the byte there; a PUSH between
them fills that byte and brings SP back to the link. -/
theorem returnIdioms : Obligations.ReturnIdioms := by
  intro s d r f hm hsp0 hsp1
  have hjal := exec_jal s d f
  obtain ⟨-, hsp, -⟩ := s.linkAndJump_spec d f
  have hcfg := exec_cfg hjal
  have hmem := State.linkAndJump_mem_of_plain hsp0 d f
  have hplain : (s.linkAndJump d f).sp ≠ (s.linkAndJump d f).cfg.kbdAddr := by rwa [hsp, hcfg]
  have hne : s.sp ≠ s.sp + 1 := by bv_omega
  constructor
  · refine ⟨_, (execAll_cons hjal _).trans (execAll_cons (exec_ret_of_plain hplain) _), ?_, ?_⟩
    · rw [State.setPc_pc, hsp, hmem, Memory.read_write_ne _ _ hne.symm]
    · rw [State.setPc_sp, State.setSp_sp, hsp]
      exact BitVec.add_assoc s.sp 1 1
  · have hback : s.sp + 1 - 1 = s.sp := BitVec.add_sub_cancel s.sp 1
    refine ⟨_, (execAll_cons hjal _).trans ((execAll_cons (exec_push_of_plain hplain r) _).trans
      (execAll_cons (exec_ret_of_plain ?plain) _)), ?_, ?_⟩
    case plain => simpa [hsp, hcfg] using hsp0
    · rw [State.setPc_pc, State.advance_mem, State.setSp_mem, State.setMem_mem, State.advance_sp,
        State.setSp_sp, hsp, hback, hmem, Memory.read_write_ne _ _ hne,
        Memory.read_write_same _ _ hm]
    · rw [State.setPc_sp, State.setSp_sp, State.advance_sp, State.setSp_sp, hsp, hback]

end Sys2Proof.Machine
end
